-- ==== Sys2Proof/Config.lean ====
section
/-! DEFINITION. The implementation parameters (00_scope.md section 3) and the one value the spec leaves open. -/

namespace Sys2Proof.Config

/-- The output length may never exceed it (00_scope.md R6). -/
abbrev sizeLimit : Nat := 65535

/-- The width of a command word, and `cnt` right after LOADCW (00_scope.md R7). -/
abbrev cwWidth : Nat := 16

/-- The smallest and the largest length of a back-reference (00_scope.md R8). -/
abbrev minCopy : Nat := 2

/-- See `minCopy`. -/
abbrev maxCopy : Nat := 272

/-- The largest displacement of a back-reference, in magnitude (00_scope.md R8). -/
abbrev maxDisp : Nat := 8192

/-- The byte capacity the output buffer needs (00_scope.md R9). -/
abbrev outCap : Nat := sizeLimit + maxCopy

/-- FREE VALUE. How many of the bytes that were left a failing input read consumed: the spec leaves `ip` after
Truncation unspecified (40_bit_source.md R60, 92_eei_decisions.md D16, 93_implementation_defined.md U4). The arguments are the
job's input cells, `in_len` and the position of the failing read, so that a job stays a function of its input (R83).
DESIGN CHOICE (the form, not a value), notes/assumptions/6.md. -/
opaque truncationAdvance : List Host.Cell → Nat → Nat → Nat

end Sys2Proof.Config
end

