-- ==== Sys2Proof/Word.lean ====
section
/-! DEFINITION. The data the block handles: bytes, 16-bit values, the sub-codes of a big reference and the decoded token. -/

namespace Sys2Proof

/-- A byte, the `u8` of 00_scope.md section 4. -/
abbrev Byte := BitVec 8

/-- A 16-bit pattern: a `u16` value, or an `i16` value in two's complement (00_scope.md R12). -/
abbrev Half := BitVec 16

/-- The `i16` a 16-bit pattern stands for (`as_i16`, 00_scope.md section 4). -/
abbrev asI16 (v : Half) : Int := v.toInt

/-- The offset-high sub-codes of a big reference (30_encoding.md Table 2, R50). `a` is the first bit read. -/
inductive OffhCode where
  | oh2 (a : Bool)
  | oh3 (a : Bool)
  | oh5 (a b : Bool)
  | oh7 (a b c : Bool)
  | oh8 (a b c d : Bool)
deriving DecidableEq, Repr

/-- The length sub-codes of a big reference (30_encoding.md Table 3, R51). -/
inductive LenCode where
  | l3
  | l4
  | l5
  | l6
  | l7 (b : Bool)
  | l17 (v : Byte)
  | l9 (b : BitVec 3)
deriving DecidableEq, Repr

/-- What DECODE hands to the Output Assembler: a token in one of three forms (00_scope.md R13). `offset` is the
`i16` pattern, `length` a `u16` (R12). -/
inductive Token where
  | literal (v : Byte)
  | backReference (offset length : Half)
  | endOfFile
deriving DecidableEq, Repr

/-- Which code the Block Decoder reads next. At every token boundary it is `token`; the other three stand between the
sub-codes of ONE big reference (41_tokens.md R70), where no START and no STEP ever leaves the block. The field is the
model's own. DESIGN CHOICE, notes/assumptions/8.md. -/
inductive Stage where
  /-- A whole token comes next (R65). -/
  | token
  /-- A big reference is open and its offset-high sub-code comes next (R71). -/
  | offh
  /-- Its length sub-code comes next (R72). -/
  | len
  /-- Both are read: the reference is executed next, and nothing is fetched (R75 to R77). -/
  | resolve
deriving DecidableEq, Repr

end Sys2Proof
end

