-- ==== Sys2Proof/Machine/Memory.lean ====
section
/-! DEFINITION. A byte space as a list of (address, byte) cells in one canonical form. Both spaces of the block, IN and OUT
(20_memory.md section 1), are held this way. -/

namespace Sys2Proof.Machine

/-- A byte space: cells with addresses strictly rising. An address that is not listed HOLDS NO VALUE (10_state.md R17, R26;
93_implementation_defined.md U8), so no listed cell can equal what an unlisted address reads as. notes/assumptions/5.md. -/
abbrev Memory := List Host.Cell

/-- The byte at an address, `none` where the space holds no value. -/
def Memory.read : Memory → Nat → Option Byte
  | [], _ => none
  | (k, x) :: rest, a => if a = k then some x else Memory.read rest a

/-- Store one byte, keeping the addresses strictly rising. -/
def Memory.write : Memory → Nat → Byte → Memory
  | [], a, v => [(a, v)]
  | (k, x) :: rest, a, v =>
    if a < k then (a, v) :: (k, x) :: rest
    else if a = k then (a, v) :: rest
    else (k, x) :: Memory.write rest a v

/-- Every listed address is at least `lo`, and the addresses rise strictly. -/
def Memory.risingFrom : Nat → Memory → Bool
  | _, [] => true
  | lo, (k, _) :: rest => decide (lo ≤ k) && Memory.risingFrom (k + 1) rest

/-- The canonical form: addresses strictly rising. -/
def Memory.wf (m : Memory) : Bool := Memory.risingFrom 0 m

/-- Exactly the addresses `lo, ..., lo + n - 1` are listed, in this order. -/
def Memory.coversFrom : Nat → Nat → Memory → Bool
  | _, 0, m => m.isEmpty
  | _, _ + 1, [] => false
  | lo, n + 1, (k, _) :: rest => decide (k = lo) && Memory.coversFrom (lo + 1) n rest

/-- The space holds a value at exactly the addresses below `n`: `inp[0..in_len)` and `out[0..olen)` are such spaces. -/
def Memory.covers (m : Memory) (n : Nat) : Bool := Memory.coversFrom 0 n m

/-- The space that holds a byte sequence from address `lo` on. -/
def Memory.ofBytesFrom : Nat → List Byte → Memory
  | _, [] => []
  | lo, b :: bs => (lo, b) :: Memory.ofBytesFrom (lo + 1) bs

/-- The space that holds a byte sequence from address 0 on (20_memory.md R27). -/
def Memory.ofBytes (bs : List Byte) : Memory := Memory.ofBytesFrom 0 bs

/-- The listed bytes, lowest address first. -/
def Memory.bytes (m : Memory) : List Byte := m.map Prod.snd

end Sys2Proof.Machine
end

