-- ==== Sys2Proof/Syntax.lean ====
section
/-! DEFINITION. The instructions: one constructor per row of spec/opcode_table.json (5 tokens, 12 sub-codes of BREF). -/

namespace Sys2Proof

/-- The instructions of the compressed stream. A token is what one STEP reads (42_output_engine.md R80); the sub-codes
are the rows `BREF.OFFH.*` and `BREF.LEN.*` of the table, which BREF takes as its two last operands. -/
inductive Instr where
  /-- LIT: a literal byte (41_tokens.md R66). -/
  | lit (v : Byte)
  /-- EOF: end of the stream (R67). -/
  | eof
  /-- SREF: short reference, `l` is `offset_l`, not 0xFF (R68). -/
  | sref (l : Byte)
  /-- MREF: small reference, `h` is the 3-bit field (R69). -/
  | mref (l : Byte) (h : BitVec 3)
  /-- BREF: big reference with its two sub-codes (R70). -/
  | bref (l : Byte) (offh : OffhCode) (len : LenCode)
  /-- BREF.OFFH.OH2 (R71). -/
  | oh2 (a : Bool)
  /-- BREF.OFFH.OH3 (R71). -/
  | oh3 (a : Bool)
  /-- BREF.OFFH.OH5 (R71). -/
  | oh5 (a b : Bool)
  /-- BREF.OFFH.OH7 (R71). -/
  | oh7 (a b c : Bool)
  /-- BREF.OFFH.OH8 (R71). -/
  | oh8 (a b c d : Bool)
  /-- BREF.LEN.L3 (R72). -/
  | l3
  /-- BREF.LEN.L4 (R72). -/
  | l4
  /-- BREF.LEN.L5 (R72). -/
  | l5
  /-- BREF.LEN.L6 (R72). -/
  | l6
  /-- BREF.LEN.L7 (R72). -/
  | l7 (b : Bool)
  /-- BREF.LEN.L17 (R72). -/
  | l17 (v : Byte)
  /-- BREF.LEN.L9 (R72). -/
  | l9 (b : BitVec 3)
deriving DecidableEq, Repr

/-- A sub-code as an instruction of its own. -/
def Instr.ofOffh : OffhCode → Instr
  | .oh2 a => .oh2 a
  | .oh3 a => .oh3 a
  | .oh5 a b => .oh5 a b
  | .oh7 a b c => .oh7 a b c
  | .oh8 a b c d => .oh8 a b c d

/-- A length sub-code as an instruction of its own. -/
def Instr.ofLen : LenCode → Instr
  | .l3 => .l3
  | .l4 => .l4
  | .l5 => .l5
  | .l6 => .l6
  | .l7 b => .l7 b
  | .l17 v => .l17 v
  | .l9 b => .l9 b

/-- The stage of the decoder that reads the instruction: tokens at a token boundary, sub-codes inside a big reference
(30_encoding.md R49, R53). -/
def Instr.stage : Instr → Stage
  | .lit _ | .eof | .sref _ | .mref _ _ | .bref _ _ _ => .token
  | .oh2 _ | .oh3 _ | .oh5 _ _ | .oh7 _ _ _ | .oh8 _ _ _ _ => .offh
  | .l3 | .l4 | .l5 | .l6 | .l7 _ | .l17 _ | .l9 _ => .len

end Sys2Proof
end

