-- ==== Sys2Proof/WellFormed.lean ====
section
/-! DEFINITION. Which instructions have an encoding. -/

namespace Sys2Proof

/-- The operand constraints of the opcode table that the operand types do not carry already. There is one: SREF's
`offset_l` is not 0xFF, since that byte means EOF there (41_tokens.md R67, R68; 30_encoding.md Table 1). Every operand of
every other row takes every value of its width (R55). -/
def Instr.wf : Instr → Bool
  | .sref l => l != 0xFF
  | .lit _ | .eof | .mref _ _ | .bref _ _ _ => true
  | .oh2 _ | .oh3 _ | .oh5 _ _ | .oh7 _ _ _ | .oh8 _ _ _ _ => true
  | .l3 | .l4 | .l5 | .l6 | .l7 _ | .l17 _ | .l9 _ => true

/-- A token, as opposed to a sub-code of BREF (30_encoding.md Table 1). -/
def Instr.isToken (i : Instr) : Bool := i.stage == .token

end Sys2Proof
end

