-- ==== Sys2Proof/Decode.lean ====
section
/-! DEFINITION. The Command Bit Source (40_bit_source.md), the decode trees (41_tokens.md R65, R71, R72), and after them the
encoder and the assembler (30_encoding.md Tables 1 to 3, R44, R58, R59). -/

namespace Sys2Proof

open Sys2Proof.Machine (Memory)

/-! ### The Command Bit Source -/

/-- The Command Bit Source with the input it reads: the job's input space and its length (10_state.md R25), the input
position (R16), the current command word (R14) and the count of its unread bits (R15). -/
structure Source where
  inp : Memory
  inLen : Nat
  ip : Nat
  cw : Half
  cnt : Nat
deriving DecidableEq, Repr

/-- What reading from the source answers. -/
inductive ReadResult (α : Type) where
  /-- The value read, and the source after it. -/
  | ok (v : α) (c : Source)
  /-- The read would pass `in_len`: Truncation (20_memory.md R28). The source stands as it was when the failing read began. -/
  | truncated (c : Source)
  /-- The input space holds no byte at this address below `in_len`. No input a START supplies has such a hole. -/
  | absent (addr : Nat)
  /-- NEXTBIT was entered with `cnt = 0`, which R15 and R61 say never happens. notes/assumptions/13.md. -/
  | noBits

/-- Go on with the value read. -/
def ReadResult.bind {α β : Type} (r : ReadResult α) (f : α → Source → ReadResult β) : ReadResult β :=
  match r with
  | .ok v c => f v c
  | .truncated c => .truncated c
  | .absent a => .absent a
  | .noBits => .noBits

/-- `h : l`, two bytes as a 16-bit value (00_scope.md section 4); little-endian order is decided by who is `l` (20_memory.md R31). -/
def pair (h l : Byte) : Half := h ++ l

/-- A command bit as a number. -/
def bitNat (b : Bool) : Nat := if b then 1 else 0

/-- A command bit as a byte. -/
def bitByte (b : Bool) : Byte := if b then 1 else 0

/-- InByte: one raw byte at `ip` (00_scope.md section 4, 20_memory.md R28). It never touches `cw` or `cnt` (R64). -/
def inByte (c : Source) : ReadResult Byte :=
  if c.inLen < c.ip + 1 then .truncated c
  else match c.inp.read c.ip with
    | none => .absent c.ip
    | some b => .ok b { c with ip := c.ip + 1 }

/-- LOADCW: the next two input bytes, little-endian, become the command word (40_bit_source.md R60, 20_memory.md R31). -/
def loadCw (c : Source) : ReadResult Unit :=
  if c.inLen < c.ip + 2 then .truncated c
  else match c.inp.read c.ip, c.inp.read (c.ip + 1) with
    | some lo, some hi => .ok () { c with ip := c.ip + 2, cw := pair hi lo, cnt := Config.cwWidth }
    | none, _ => .absent c.ip
    | some _, none => .absent (c.ip + 1)

/-- NEXTBIT's count and shift, before its refill (40_bit_source.md R61). -/
def afterShift (c : Source) : Source := { c with cnt := c.cnt - 1, cw := c.cw >>> 1 }

/-- NEXTBIT: the lowest bit of `cw`, with the refill BEFORE the bit is delivered (40_bit_source.md R61, R97). -/
def nextBit (c : Source) : ReadResult Bool :=
  if c.cnt = 0 then .noBits
  else if (afterShift c).cnt = 0 then (loadCw (afterShift c)).bind fun _ c' => .ok (c.cw.getLsbD 0) c'
  else .ok (c.cw.getLsbD 0) (afterShift c)

/-- NEXTBITS(n) with the bits before it already gathered in `v`: big-endian, first bit most significant
(40_bit_source.md R62, 20_memory.md R33). -/
def nextBitsFrom : Nat → Nat → Source → ReadResult Nat
  | 0, v, c => .ok v c
  | n + 1, v, c => (nextBit c).bind fun b c' => nextBitsFrom n (2 * v + bitNat b) c'

/-- NEXTBITS(n) (40_bit_source.md R62). -/
def nextBits (n : Nat) (c : Source) : ReadResult Nat := nextBitsFrom n 0 c

/-! ### The decode trees -/

/-- A decode tree: which item is read next and what follows for each of its values (30_encoding.md R46, R53). -/
inductive Reader (α : Type) where
  | done (v : α)
  | bit (k : Bool → Reader α)
  | byte (k : Byte → Reader α)

/-- Walk a tree over the source: every command bit by NEXTBIT, every raw byte by InByte, in order (41_tokens.md R65). -/
def Reader.run {α : Type} : Reader α → Source → ReadResult α
  | .done v, c => .ok v c
  | .bit k, c => (nextBit c).bind fun b c' => (k b).run c'
  | .byte k, c => (inByte c).bind fun v c' => (k v).run c'

/-- An `n`-bit field, big-endian, as a tree (40_bit_source.md R62). -/
def Reader.field {α : Type} : Nat → Nat → (Nat → Reader α) → Reader α
  | 0, v, k => k v
  | n + 1, v, k => .bit fun b => Reader.field n (2 * v + bitNat b) k

/-- OFFH_BIG's bits: the first data bit, then pairs of an extension bit and a data bit, at most three, with a stop bit
unless all three are taken (41_tokens.md R71, 30_encoding.md R50). -/
def readOffh {α : Type} (k : OffhCode → Reader α) : Reader α :=
  .bit fun a => .bit fun final =>
    if final then k (.oh2 a)
    else .bit fun stop0 =>
      if stop0 then k (.oh3 a)
      else .bit fun b => .bit fun stop1 =>
        if stop1 then k (.oh5 a b)
        else .bit fun c => .bit fun stop2 =>
          if stop2 then k (.oh7 a b c)
          else .bit fun d => k (.oh8 a b c d)

/-- LEN_BIG's items: four probe bits, the 7/8 selector, the long-length selector, the 3-bit field (41_tokens.md R72,
30_encoding.md R51). -/
def readLen {α : Type} (k : LenCode → Reader α) : Reader α :=
  .bit fun p0 => if p0 then k .l3 else
  .bit fun p1 => if p1 then k .l4 else
  .bit fun p2 => if p2 then k .l5 else
  .bit fun p3 => if p3 then k .l6 else
  .bit fun s7 => if s7 then .bit fun b => k (.l7 b) else
  .bit fun s17 => if s17 then .byte fun v => k (.l17 v) else
  Reader.field 3 0 fun v => k (.l9 (BitVec.ofNat 3 v))

/-- DECODE: one token (41_tokens.md R65, 30_encoding.md R53). -/
def readToken : Reader Instr :=
  .bit fun c0 =>
    if c0 then .byte fun v => .done (.lit v)
    else .bit fun isBigRef => .byte fun l =>
      if isBigRef then readOffh fun o => readLen fun n => .done (.bref l o n)
      else .bit fun c2 =>
        if c2 then Reader.field 3 0 fun h => .done (.mref l (BitVec.ofNat 3 h))
        else if l = 0xFF then .done .eof
        else .done (.sref l)

/-- The tree for what the decoder reads at a stage. At `resolve` nothing is left to read, so the stage has no tree. -/
def treeAt : Stage → Option (Reader Instr)
  | .token => some readToken
  | .offh => some (readOffh fun o => .done (Instr.ofOffh o))
  | .len => some (readLen fun n => .done (Instr.ofLen n))
  | .resolve => none

/-- DECODE of one whole token from the source (41_tokens.md R65). The code is complete: what it can answer besides an
instruction is Truncation (30_encoding.md R55). -/
def decodeToken (c : Source) : ReadResult Instr := readToken.run c

/-! ### The encoder -/

/-- One item of an encoding: a command bit or a raw byte (30_encoding.md R46). -/
inductive Item where
  | bit (b : Bool)
  | byte (v : Byte)
deriving DecidableEq, Repr

/-- The command bits of an `n`-bit field, most significant first (20_memory.md R33). -/
def fieldItems {n : Nat} (v : BitVec n) : Nat → List Item
  | 0 => []
  | k + 1 => .bit (v.getLsbD k) :: fieldItems v k

/-- Table 2's patterns (30_encoding.md). -/
def encodeOffh : OffhCode → List Item
  | .oh2 a => [.bit a, .bit true]
  | .oh3 a => [.bit a, .bit false, .bit true]
  | .oh5 a b => [.bit a, .bit false, .bit false, .bit b, .bit true]
  | .oh7 a b c => [.bit a, .bit false, .bit false, .bit b, .bit false, .bit c, .bit true]
  | .oh8 a b c d => [.bit a, .bit false, .bit false, .bit b, .bit false, .bit c, .bit false, .bit d]

/-- `n` command bits 0. -/
def zeros (n : Nat) : List Item := List.replicate n (.bit false)

/-- Table 3's patterns (30_encoding.md). -/
def encodeLen : LenCode → List Item
  | .l3 => zeros 0 ++ [.bit true]
  | .l4 => zeros 1 ++ [.bit true]
  | .l5 => zeros 2 ++ [.bit true]
  | .l6 => zeros 3 ++ [.bit true]
  | .l7 b => zeros 4 ++ [.bit true, .bit b]
  | .l17 v => zeros 5 ++ [.bit true, .byte v]
  | .l9 b => zeros 6 ++ fieldItems b 3

/-- Table 1's patterns, and a sub-code's own (30_encoding.md). -/
def encode : Instr → List Item
  | .lit v => [.bit true, .byte v]
  | .eof => [.bit false, .bit false, .byte 0xFF, .bit false]
  | .sref l => [.bit false, .bit false, .byte l, .bit false]
  | .mref l h => [.bit false, .bit false, .byte l, .bit true] ++ fieldItems h 3
  | .bref l o n => [.bit false, .bit true, .byte l] ++ encodeOffh o ++ encodeLen n
  | .oh2 a => encodeOffh (.oh2 a)
  | .oh3 a => encodeOffh (.oh3 a)
  | .oh5 a b => encodeOffh (.oh5 a b)
  | .oh7 a b c => encodeOffh (.oh7 a b c)
  | .oh8 a b c d => encodeOffh (.oh8 a b c d)
  | .l3 => encodeLen .l3
  | .l4 => encodeLen .l4
  | .l5 => encodeLen .l5
  | .l6 => encodeLen .l6
  | .l7 b => encodeLen (.l7 b)
  | .l17 v => encodeLen (.l17 v)
  | .l9 b => encodeLen (.l9 b)

/-- Walk a tree over a list of items: the code as 30_encoding.md R46 writes it, without command words. -/
def Reader.runItems {α : Type} : Reader α → List Item → Option (α × List Item)
  | .done v, its => some (v, its)
  | .bit k, .bit b :: its => (k b).runItems its
  | .byte k, .byte v :: its => (k v).runItems its
  | _, _ => none

/-! ### The assembler -/

/-- A command word from its bits, the first consumed bit lowest; bits that are not given are 0 (20_memory.md R32,
30_encoding.md R58). -/
def wordOf : List Bool → Half
  | [] => 0
  | b :: bs => (wordOf bs <<< 1) ||| (if b then 1 else 0)

/-- A command word's two bytes as the stream stores them (20_memory.md R31). -/
def wordBytes (w : Half) : List Byte := [w.extractLsb' 0 8, w.extractLsb' 8 8]

/-- Place items behind a command word of which `cnt` bits are free: the bits that go into that word, and the bytes that
follow. A new word stands where the refill reads it, right after the item that takes the last free bit
(30_encoding.md R44). -/
def place : List Item → Nat → List Bool × List Byte
  | [], _ => ([], [])
  | .byte v :: its, cnt => ((place its cnt).1, v :: (place its cnt).2)
  | .bit b :: its, cnt =>
    if cnt = 1 then ([b], wordBytes (wordOf (place its 16).1) ++ (place its 16).2)
    else (b :: (place its (cnt - 1)).1, (place its (cnt - 1)).2)

/-- The bytes of a stream of items, its first command word at address 0 (30_encoding.md R43, R44). -/
def assembleItems (its : List Item) : List Byte :=
  wordBytes (wordOf (place its 16).1) ++ (place its 16).2

/-- Assemble a program (30_encoding.md R58). -/
def assemble (p : List Instr) : List Byte := assembleItems (p.flatMap encode)

/-- `SREF off` of the assembler's notation (30_encoding.md R58, R52). -/
def asmSref (off : Int) : Option Instr :=
  if -256 ≤ off ∧ off ≤ -2 then some (.sref (BitVec.ofInt 8 off)) else none

/-- `MREF off` (30_encoding.md R58, R52): the field is the high byte plus 1, less 0xF8. -/
def asmMref (off : Int) : Option Instr :=
  if -2304 ≤ off ∧ off ≤ -257 then
    some (.mref (BitVec.ofInt 8 off) (((BitVec.ofInt 16 off).extractLsb' 8 8 + 1).setWidth 3))
  else none

/-- The sub-code that gives a high byte, by Table 2's partition of 0xE0..0xFF. -/
def asmOffh (high : Byte) : Option OffhCode :=
  let bit := fun i => high.getLsbD i
  if 0xFE ≤ high.toNat then some (.oh2 (bit 0))
  else if 0xFC ≤ high.toNat then some (.oh3 (bit 0))
  else if 0xF8 ≤ high.toNat then some (.oh5 (bit 1) (bit 0))
  else if 0xF0 ≤ high.toNat then some (.oh7 (bit 2) (bit 1) (bit 0))
  else if 0xE0 ≤ high.toNat then some (.oh8 (bit 3) (bit 2) (bit 1) (bit 0))
  else none

/-- The sub-code that gives a length, by Table 3's partition of 3..272. -/
def asmLen (len : Nat) : Option LenCode :=
  if len = 3 then some .l3
  else if len = 4 then some .l4
  else if len = 5 then some .l5
  else if len = 6 then some .l6
  else if len = 7 then some (.l7 false)
  else if len = 8 then some (.l7 true)
  else if 9 ≤ len ∧ len ≤ 16 then some (.l9 (BitVec.ofNat 3 (len - 9)))
  else if 17 ≤ len ∧ len ≤ 272 then some (.l17 (BitVec.ofNat 8 (len - 17)))
  else none

/-- `BREF off, len` (30_encoding.md R58, R52); refused outside its range (R57, H5). -/
def asmBref (off : Int) (len : Nat) : Option Instr :=
  if -8192 ≤ off ∧ off ≤ -1 then
    match asmOffh ((BitVec.ofInt 16 off).extractLsb' 8 8), asmLen len with
    | some o, some n => some (.bref (BitVec.ofInt 8 off) o n)
    | _, _ => none
  else none

/-- `REF off, len`: the one form that can encode it (30_encoding.md R59). -/
def asmRef (off : Int) (len : Nat) : Option Instr :=
  if len = 2 then (asmSref off).orElse fun _ => asmMref off
  else asmBref off len

/-- `RUN v, n` for n in 4..273: `LIT v` and `BREF -1, n-1` (30_encoding.md R59). -/
def asmRun (v : Byte) (n : Nat) : Option (List Instr) :=
  if 4 ≤ n ∧ n ≤ 273 then (asmBref (-1) (n - 1)).map fun r => [.lit v, r] else none

/-! ### The opcode table's numbering -/

/-- The low `n` bits of a number, most significant first: the order in which the table writes a pattern's items. -/
def bitsFromTop : Nat → Nat → List Bool
  | 0, _ => []
  | n + 1, w => w.testBit n :: bitsFromTop n w

/-- A byte from its bits, most significant first (30_encoding.md R46). -/
def byteFromTop (bs : List Bool) : Byte := bs.foldl (fun v b => (v <<< 1) ||| bitByte b) 0

/-- The items a tree takes off a pattern written as one row of bits; where the row ends, zeros follow. -/
def Reader.itemsOf {α : Type} : Reader α → List Bool → List Item
  | .done _, _ => []
  | .bit k, bs => .bit (bs.headD false) :: (k (bs.headD false)).itemsOf bs.tail
  | .byte k, bs =>
    let v := byteFromTop ((bs ++ List.replicate 8 false).take 8)
    .byte v :: (k v).itemsOf (bs.drop 8)

/-- Which code a table word belongs to. The only row of spec/opcode_table.json with bit numbers is BREF.OFFH.OH8, of 8 bits;
no token is that short. DEDUCED, notes/assumptions/9.md. -/
def tableStage (nbits : Nat) : Stage := if nbits = 8 then .offh else .token

/-- The input stream that holds a table word's instruction as its first items: the items in read order (the table's most
significant bit is read first, 30_encoding.md R46), placed by the assembler, and zeros behind them. -/
def tableStream (nbits w : Nat) : List Byte :=
  match treeAt (tableStage nbits) with
  | some t => assembleItems (t.itemsOf (bitsFromTop nbits w)) ++ List.replicate 8 0
  | none => []

/-- The source right after START's LOADCW on an input (70_reset_and_hazards.md R94). -/
def sourceOn (bytes : List Byte) : ReadResult Source :=
  let c : Source := { inp := Memory.ofBytes bytes, inLen := bytes.length, ip := 0, cw := 0, cnt := 0 }
  (loadCw c).bind fun _ c' => .ok c' c'

/-- The instruction the decoder reads from a word numbered as spec/opcode_table.json numbers it: the word is laid out as the
stream stores it, and the decoder of that stage reads it. notes/assumptions/9.md. -/
def decodeTableWord (nbits w : Nat) : Option Instr :=
  match treeAt (tableStage nbits), sourceOn (tableStream nbits w) with
  | some t, .ok c _ =>
    match t.run c with
    | .ok i _ => some i
    | _ => none
  | _, _ => none

end Sys2Proof
end

