-- ==== Sys2Proof/Machine/State.lean ====
section
/-! DEFINITION. The machine's state (10_state.md), its state after reset (R26, R93), and the reasons a step can stop. -/

namespace Sys2Proof.Machine

/-- STATUS, the job state (10_state.md R19). -/
inductive Status where
  | idle
  | busy
  | done
  | error
deriving DecidableEq, Repr

/-- CAUSE, the error cause (10_state.md R20). -/
inductive Cause where
  | none
  | truncation
  | invalidAddress
  | outputSizeOverflow
deriving DecidableEq, Repr

/-- The per-token temporaries (10_state.md R22) that pass from one row of the opcode table to another while a big reference
is read, and the decoder's stage. None of them outlives a token. notes/assumptions/7.md and 8.md. -/
structure Temps where
  /-- The model's own: which code is read next. -/
  stage : Stage
  /-- `offset_l`. -/
  offsetL : Byte
  /-- `offset_h`. -/
  offsetH : Byte
  /-- `length`. -/
  length : Half
deriving DecidableEq, Repr

/-- The temporaries at a token boundary: none carries a value from one token to the next (10_state.md R22). -/
def Temps.clear : Temps := { stage := .token, offsetL := 0, offsetH := 0, length := 0 }

/-- The whole machine. `src` is the Command Bit Source with the job's input (`inp`, `inLen`, `ip`, `cw`, `cnt`). -/
structure State where
  /-- The input space and its length, `ip`, `cw` and `cnt` (10_state.md R14, R15, R16, R25). -/
  src : Source
  /-- The output buffer (R17): the byte at every address below `olen`. -/
  out : Memory
  /-- The output length (R17, R18). -/
  olen : Nat
  /-- STATUS (R19). -/
  status : Status
  /-- CAUSE (R20). -/
  cause : Cause
  /-- ERR_OFFSET, an `i16` pattern (R21). -/
  errOffset : Half
  /-- ERR_START (R21). -/
  errStart : Half
  /-- The per-token temporaries (R22). -/
  temps : Temps
deriving DecidableEq, Repr

/-- Why the machine stops with a fault. No run that a START began reaches one of these. -/
inductive Fault where
  /-- Raised by the step when the input space holds no byte at an address below `in_len` (20_memory.md R28). SAFE: the
  hardware has no such input; a START always supplies every byte. notes/assumptions/5.md. -/
  | inputByteAbsent (addr : Nat)
  /-- Raised by the copy when the output buffer holds no value at the index it reads, which 93_implementation_defined.md U8
  treats as a fault. SAFE: no rule reads such a byte (20_memory.md R30). notes/assumptions/5.md. -/
  | outputByteAbsent (addr : Nat)
  /-- Raised by the step when NEXTBIT is entered with `cnt = 0`, which 40_bit_source.md R61 says never happens. SAFE: see
  10_state.md R15. notes/assumptions/13.md. -/
  | bitCountZero
deriving DecidableEq, Repr

/-- Why a request gets no transition. -/
inductive Refusal where
  /-- Raised by an arm of `exec` whose instruction has no meaning. SAFE. No arm is in that case. -/
  | notModelled (mnemonic : String)
  /-- Raised by STEP when STATUS is not BUSY (42_output_engine.md R80, 93_implementation_defined.md H3). SAFE: the spec
  gives it no transition. -/
  | stepNotBusy
  /-- Raised by START when STATUS is BUSY (70_reset_and_hazards.md R94, H1). UNSAFE where a host breaks its duty: such a run
  is not modelled (92_eei_decisions.md D7). -/
  | startWhileBusy
  /-- Raised by a host read of anything but STATUS before the job has ended (20_memory.md R41, H2). UNSAFE as
  `startWhileBusy` is. -/
  | readBeforeEnd
deriving DecidableEq, Repr

/-- The state right after reset (10_state.md R26, 70_reset_and_hazards.md R93). `cw`, `cnt` and the temporaries hold 0: the spec
gives them no value. DESIGN CHOICE, notes/assumptions/3.md and 7.md. No input is held: DESIGN CHOICE, notes/assumptions/1.md. -/
def State.reset : State :=
  { src := { inp := [], inLen := 0, ip := 0, cw := 0, cnt := 0 }
    out := []
    olen := 0
    status := .idle
    cause := .none
    errOffset := 0
    errStart := 0
    temps := Temps.clear }

end Sys2Proof.Machine
end

