-- ==== Sys2Proof/Machine/Flags.lean ====
section
/-! DEFINITION. The block has no condition codes (10_state.md R24). What stands here is what its status registers read as and the
two conditions it tests. -/

namespace Sys2Proof.Machine

/-- STATUS as the host reads it (10_state.md R19). -/
def Status.code : Status → BitVec 2
  | .idle => 0
  | .busy => 1
  | .done => 2
  | .error => 3

/-- CAUSE as the host reads it (10_state.md R20). -/
def Cause.code : Cause → BitVec 2
  | .none => 0
  | .truncation => 1
  | .invalidAddress => 2
  | .outputSizeOverflow => 3

/-- The bounds check's condition: a copy may not begin at `start` (42_output_engine.md R76). -/
def startInvalid (start : Half) (olen : Nat) : Bool := decide (olen ≤ start.toNat)

/-- The output-size check's condition (42_output_engine.md R79). -/
def sizeExceeded (olen : Nat) : Bool := decide (Config.sizeLimit < olen)

end Sys2Proof.Machine
end

