-- ==== Sys2Proof/Machine/Operands.lean ====
section
/-! DEFINITION. The operand values: offset high bytes, lengths, offsets, tokens and start indices, each in the width its rule
gives (00_scope.md R11). -/

namespace Sys2Proof.Machine

/-- The extension loop of OFFH_BIG over the data bits taken, on the pair (`offset_h`, `tmp`) (41_tokens.md R71, step 3). -/
def offhExtend : List Bool → Byte × Byte → Byte × Byte
  | [], p => p
  | b :: bs, (offsetH, tmp) => offhExtend bs ((offsetH <<< 1) ||| bitByte b, tmp * 2)

/-- The correction of OFFH_BIG (41_tokens.md R71, step 4). -/
def offhCorrect (p : Byte × Byte) : Byte := ~~~(p.2 - p.1) + 1

/-- Steps 3 and 4 of OFFH_BIG from the first data bit `a` and the data bits of the extensions (41_tokens.md R71). -/
def offhBig (a : Bool) (ext : List Bool) : Byte :=
  offhCorrect (offhExtend ext (0xFE ||| bitByte a, 2))

/-- OFFH_BIG: `offset_h`. A stop in step 2 takes no correction (41_tokens.md R71, 90_conflicts.md C4). -/
def offhHigh : OffhCode → Byte
  | .oh2 a => 0xFE ||| bitByte a
  | .oh3 a => offhBig a []
  | .oh5 a b => offhBig a [b]
  | .oh7 a b c => offhBig a [b, c]
  | .oh8 a b c d => offhBig a [b, c, d]

/-- LEN_BIG: `length`, a `u16`; the long form adds at 16 bits (41_tokens.md R72, 90_conflicts.md C2). -/
def lenValue : LenCode → Half
  | .l3 => 3
  | .l4 => 4
  | .l5 => 5
  | .l6 => 6
  | .l7 b => if b then 8 else 7
  | .l17 v => v.setWidth 16 + 0x11
  | .l9 b => (b.setWidth 16 + 0x09) &&& 0xFF

/-- `offset_h` of a small reference (41_tokens.md R69). -/
def mrefHigh (h : BitVec 3) : Byte := (0xF8 ||| h.setWidth 8) - 1

/-- The offset pattern `offset_h : offset_l` (20_memory.md R34). -/
def offsetOf (offsetH offsetL : Byte) : Half := pair offsetH offsetL

/-- The length of SREF and MREF (41_tokens.md R68, R69). -/
def shortLength : Half := 2

/-- The token an instruction decodes to; a sub-code is no token (41_tokens.md R66 to R70). -/
def tokenOf : Instr → Option Token
  | .lit v => some (.literal v)
  | .eof => some .endOfFile
  | .sref l => some (.backReference (offsetOf 0xFF l) shortLength)
  | .mref l h => some (.backReference (offsetOf (mrefHigh h) l) shortLength)
  | .bref l o n => some (.backReference (offsetOf (offhHigh o) l) (lenValue n))
  | .oh2 _ | .oh3 _ | .oh5 _ _ | .oh7 _ _ _ | .oh8 _ _ _ _ => none
  | .l3 | .l4 | .l5 | .l6 | .l7 _ | .l17 _ | .l9 _ => none

/-- The start index of a copy, by 16-bit wraparound (42_output_engine.md R75, 70_reset_and_hazards.md R100). -/
def startIndex (olen : Nat) (offset : Half) : Half := BitVec.ofNat 16 olen + offset

end Sys2Proof.Machine
end

