-- ==== Sys2Proof/Machine/Ops.lean ====
section
/-! DEFINITION. The named operations: error entry, the output buffer, the copy engine, the execution of a token, and the parts of
a big reference. -/

namespace Sys2Proof.Machine

open Host (Outcome)

/-! ### Error entry -/

/-- What a `raise` carries (60_exceptions.md section 1). -/
inductive Raise where
  | truncation
  | invalidAddress (offset start : Half)
  | outputSizeOverflow
deriving DecidableEq, Repr

/-- The cause an error is recorded under. -/
def Raise.cause : Raise → Cause
  | .truncation => .truncation
  | .invalidAddress _ _ => .invalidAddress
  | .outputSizeOverflow => .outputSizeOverflow

/-- TAKING AN EXCEPTION: error entry (60_exceptions.md R87). Nothing is saved for a resumption, and there is no return from it
(R89): STATUS leaves ERROR only by START or reset. -/
def raiseError (e : Raise) (s : State) : State :=
  match e with
  | .invalidAddress offset start =>
    { s with status := .error, cause := e.cause, errOffset := offset, errStart := start }
  | .truncation | .outputSizeOverflow => { s with status := .error, cause := e.cause }

/-- The end of a step: no temporary carries a value to the next token (10_state.md R22). -/
def endStep (s : State) : State := { s with temps := Temps.clear }

/-- `ip` after Truncation: between the position of the failing read and `in_len`, and not known more closely
(92_eei_decisions.md D16, 93_implementation_defined.md U4). FREE VALUE, notes/assumptions/6.md. -/
def truncatedIp (c : Source) : Nat :=
  c.ip + min (Config.truncationAdvance c.inp c.inLen c.ip) (c.inLen - c.ip)

/-- A read failed with the source at `c`: Truncation ends the job, and the token being decoded is abandoned
(60_exceptions.md R84, R87). -/
def takeTruncation (c : Source) (s : State) : State :=
  endStep (raiseError .truncation { s with src := { c with ip := truncatedIp c } })

/-- The source after the items of an instruction have been read. -/
def State.withSource (s : State) (c : Source) : State := { s with src := c }

/-! ### The output buffer -/

/-- OutAppend (00_scope.md section 4, 20_memory.md R29). -/
def outAppend (v : Byte) (s : State) : State :=
  { s with out := s.out.write s.olen v, olen := s.olen + 1 }

/-- OutRead: defined only below `olen` (00_scope.md section 4, 20_memory.md R30). -/
def outRead (s : State) (i : Nat) : Option Byte :=
  if i < s.olen then s.out.read i else none

/-- COPY of `n` bytes from index `i` on, one byte at a time, each appended before the next is read (42_output_engine.md R77,
70_reset_and_hazards.md R98). -/
def copy : Nat → Nat → State → Outcome State Fault Refusal
  | 0, _, s => .next s
  | n + 1, i, s =>
    match outRead s i with
    | none => .fault (.outputByteAbsent i)
    | some v => copy n (i + 1) (outAppend v s)

/-- The output-size check after a token that is not EOF (42_output_engine.md R79). -/
def sizeCheck (s : State) : State :=
  if sizeExceeded s.olen then raiseError .outputSizeOverflow s else s

/-! ### The execution of a token -/

/-- `BackReference(offset, length)`: resolve, check, copy, check the size (42_output_engine.md R75, R76, R77, R79). -/
def execBackReference (offset length : Half) (s : State) : Outcome State Fault Refusal :=
  let start := startIndex s.olen offset
  if startInvalid start s.olen then .next (endStep (raiseError (.invalidAddress offset start) s))
  else match copy length.toNat start.toNat s with
    | .next s' => .next (endStep (sizeCheck s'))
    | .fault f => .fault f
    | .refused r => .refused r

/-- The execution of a decoded token, the `case` of STEP (42_output_engine.md R80; R74, R78). -/
def execToken (t : Token) (s : State) : Outcome State Fault Refusal :=
  match t with
  | .endOfFile => .next (endStep { s with status := .done })
  | .literal v => .next (endStep (sizeCheck (outAppend v s)))
  | .backReference offset length => execBackReference offset length s

/-! ### The parts of a big reference -/

/-- A big reference is open: `offset_l` is known and its sub-codes follow (41_tokens.md R65, R70). -/
def openReference (l : Byte) (s : State) : State :=
  { s with temps := { Temps.clear with stage := .offh, offsetL := l } }

/-- An offset-high sub-code gives `offset_h`; the length sub-code is read next (41_tokens.md R70, R71). -/
def applyOffh (o : OffhCode) (s : State) : State :=
  { s with temps := { s.temps with offsetH := offhHigh o, stage := .len } }

/-- A length sub-code gives `length`; the reference is then complete (41_tokens.md R70, R72). -/
def applyLen (n : LenCode) (s : State) : State :=
  { s with temps := { s.temps with length := lenValue n, stage := .resolve } }

/-- The reference whose parts the temporaries hold becomes a token and is executed (41_tokens.md R70). -/
def completeReference (s : State) : Outcome State Fault Refusal :=
  execToken (.backReference (offsetOf s.temps.offsetH s.temps.offsetL) s.temps.length) s

end Sys2Proof.Machine
end

