-- ==== Sys2Proof/Machine/References.lean ====
section
/-! DEFINITION. The meanings of SREF, MREF and BREF. -/

namespace Sys2Proof.Machine

open Host (Outcome)

/-- SREF: `offset_h` is 0xFF, the length 2 (41_tokens.md R68). -/
def execSref (l : Byte) (s : State) : Outcome State Fault Refusal :=
  execToken (.backReference (offsetOf 0xFF l) shortLength) s

/-- MREF: `offset_h` from the 3-bit field, the length 2 (41_tokens.md R69). -/
def execMref (l : Byte) (h : BitVec 3) (s : State) : Outcome State Fault Refusal :=
  execToken (.backReference (offsetOf (mrefHigh h) l) shortLength) s

/-- BREF: its offset-high sub-code first, its length sub-code second, then the reference they make (41_tokens.md R70). -/
def execBref (l : Byte) (o : OffhCode) (n : LenCode) (s : State) : Outcome State Fault Refusal :=
  completeReference (applyLen n (applyOffh o (openReference l s)))

end Sys2Proof.Machine
end

