-- ==== Sys2Proof/Machine/SubCodes.lean ====
section
/-! DEFINITION. The meanings of BREF's sub-codes as rows of the opcode table: each gives one part of the open reference
(41_tokens.md R71, R72). notes/assumptions/8.md. -/

namespace Sys2Proof.Machine

open Host (Outcome)

/-- BREF.OFFH.OH2: `offset_h = 0xFE | a` (30_encoding.md Table 2, 41_tokens.md R71). -/
def execOh2 (a : Bool) (s : State) : Outcome State Fault Refusal := .next (applyOffh (.oh2 a) s)

/-- BREF.OFFH.OH3: `offset_h = 0xFC | a` (30_encoding.md Table 2, 41_tokens.md R71). -/
def execOh3 (a : Bool) (s : State) : Outcome State Fault Refusal := .next (applyOffh (.oh3 a) s)

/-- BREF.OFFH.OH5: `offset_h = 0xF8 | ab` (30_encoding.md Table 2, 41_tokens.md R71). -/
def execOh5 (a b : Bool) (s : State) : Outcome State Fault Refusal := .next (applyOffh (.oh5 a b) s)

/-- BREF.OFFH.OH7: `offset_h = 0xF0 | abc` (30_encoding.md Table 2, 41_tokens.md R71). -/
def execOh7 (a b c : Bool) (s : State) : Outcome State Fault Refusal := .next (applyOffh (.oh7 a b c) s)

/-- BREF.OFFH.OH8: `offset_h = 0xE0 | abcd` (30_encoding.md Table 2, 41_tokens.md R71). -/
def execOh8 (a b c d : Bool) (s : State) : Outcome State Fault Refusal := .next (applyOffh (.oh8 a b c d) s)

/-- BREF.LEN.L3: `length = 3` (30_encoding.md Table 3, 41_tokens.md R72). -/
def execL3 (s : State) : Outcome State Fault Refusal := .next (applyLen .l3 s)

/-- BREF.LEN.L4: `length = 4` (30_encoding.md Table 3, 41_tokens.md R72). -/
def execL4 (s : State) : Outcome State Fault Refusal := .next (applyLen .l4 s)

/-- BREF.LEN.L5: `length = 5` (30_encoding.md Table 3, 41_tokens.md R72). -/
def execL5 (s : State) : Outcome State Fault Refusal := .next (applyLen .l5 s)

/-- BREF.LEN.L6: `length = 6` (30_encoding.md Table 3, 41_tokens.md R72). -/
def execL6 (s : State) : Outcome State Fault Refusal := .next (applyLen .l6 s)

/-- BREF.LEN.L7: `length = 7 + b` (30_encoding.md Table 3, 41_tokens.md R72). -/
def execL7 (b : Bool) (s : State) : Outcome State Fault Refusal := .next (applyLen (.l7 b) s)

/-- BREF.LEN.L17: `length = 17 + v` (30_encoding.md Table 3, 41_tokens.md R72). -/
def execL17 (v : Byte) (s : State) : Outcome State Fault Refusal := .next (applyLen (.l17 v) s)

/-- BREF.LEN.L9: `length = 9 + bbb` (30_encoding.md Table 3, 41_tokens.md R72). -/
def execL9 (b : BitVec 3) (s : State) : Outcome State Fault Refusal := .next (applyLen (.l9 b) s)

end Sys2Proof.Machine
end

