-- ==== Sys2Proof/Machine/Tokens.lean ====
section
/-! DEFINITION. The meanings of LIT and EOF. -/

namespace Sys2Proof.Machine

open Host (Outcome)

/-- LIT (41_tokens.md R66, 42_output_engine.md R74, R79). -/
def execLit (v : Byte) (s : State) : Outcome State Fault Refusal := execToken (.literal v) s

/-- EOF (41_tokens.md R67, 42_output_engine.md R78). -/
def execEof (s : State) : Outcome State Fault Refusal := execToken .endOfFile s

end Sys2Proof.Machine
end

