-- ==== Sys2Proof/Machine/Dispatch.lean ====
section
/-! DEFINITION. One arm per row of the opcode table. -/

namespace Sys2Proof.Machine

def exec (i : Instr) (s : State) : Host.Outcome State Fault Refusal :=
  match i with
  | .lit v => Sys2Proof.Machine.execLit v s
  | .eof => Sys2Proof.Machine.execEof s
  | .sref l => Sys2Proof.Machine.execSref l s
  | .mref l h => Sys2Proof.Machine.execMref l h s
  | .bref l o n => Sys2Proof.Machine.execBref l o n s
  | .oh2 a => Sys2Proof.Machine.execOh2 a s
  | .oh3 a => Sys2Proof.Machine.execOh3 a s
  | .oh5 a b => Sys2Proof.Machine.execOh5 a b s
  | .oh7 a b c => Sys2Proof.Machine.execOh7 a b c s
  | .oh8 a b c d => Sys2Proof.Machine.execOh8 a b c d s
  | .l3 => Sys2Proof.Machine.execL3 s
  | .l4 => Sys2Proof.Machine.execL4 s
  | .l5 => Sys2Proof.Machine.execL5 s
  | .l6 => Sys2Proof.Machine.execL6 s
  | .l7 b => Sys2Proof.Machine.execL7 b s
  | .l17 v => Sys2Proof.Machine.execL17 v s
  | .l9 b => Sys2Proof.Machine.execL9 b s

end Sys2Proof.Machine
end

