-- ==== Sys2Proof/Machine/Step.lean ====
section
/-! DEFINITION. STEP (42_output_engine.md R80), and where a table word is put so that the next STEP runs it. -/

namespace Sys2Proof.Machine

/-- STEP: at a token boundary, decode ONE token and execute it (42_output_engine.md R80); refused unless STATUS is BUSY
(93_implementation_defined.md H3). Inside a big reference, which no START and no STEP from a token boundary leaves open,
it reads the sub-code that is due, or executes the reference once both are read (notes/assumptions/8.md). -/
def step (s : State) : Host.Outcome State Fault Refusal :=
  match s.status with
  | .busy =>
    match treeAt s.temps.stage with
    | none => completeReference s
    | some t =>
      match t.run s.src with
      | .ok i c => exec i (s.withSource c)
      | .truncated c => .next (takeTruncation c s)
      | .absent a => .fault (.inputByteAbsent a)
      | .noBits => .fault .bitCountZero
  | .idle | .done | .error => .refused .stepNotBusy

/-- `s` with a table word's instruction as what the next STEP reads: the job's input is the stream that holds it, the source
stands as START leaves it, STATUS is BUSY, and the decoder is at the code the word belongs to. It stands for the host's
START. notes/assumptions/2.md and 9.md. -/
def State.withFetchWord (s : State) (nbits w : Nat) : State :=
  match sourceOn (tableStream nbits w) with
  | .ok c _ => { s with src := c, status := .busy, temps := { s.temps with stage := tableStage nbits } }
  | _ => s

end Sys2Proof.Machine
end

