-- ==== Sys2Proof/Machine/HostPort.lean ====
section
/-! DEFINITION. The host's transactions (92_eei_decisions.md D1): reset, START, STEP, and what the host may read. -/

namespace Sys2Proof.Machine

open Host (Outcome)

/-- Reset, in any state (70_reset_and_hazards.md R93). -/
def hostReset (_s : State) : State := State.reset

/-- What START writes before its LOADCW (70_reset_and_hazards.md R94). The output buffer starts empty, so no byte of it holds
a value (10_state.md R17), and no temporary is left over (R22). notes/assumptions/10.md. -/
def beginJob (bytes : List Byte) (s : State) : State :=
  { s with
    src := { s.src with inp := Memory.ofBytes bytes, inLen := bytes.length, ip := 0 }
    out := []
    olen := 0
    status := .busy
    cause := .none
    errOffset := 0
    errStart := 0
    temps := Temps.clear }

/-- START(inp): refused while BUSY (70_reset_and_hazards.md R94, H1); Truncation if the input is shorter than a command word. -/
def hostStart (bytes : List Byte) (s : State) : Outcome State Fault Refusal :=
  match s.status with
  | .busy => .refused .startWhileBusy
  | .idle | .done | .error =>
    match loadCw (beginJob bytes s).src with
    | .ok _ c => .next ((beginJob bytes s).withSource c)
    | .truncated c => .next (takeTruncation c (beginJob bytes s))
    | .absent a => .fault (.inputByteAbsent a)
    | .noBits => .fault .bitCountZero

/-- The host's commands. -/
inductive Command where
  | reset
  | start (bytes : List Byte)
  | step
deriving DecidableEq, Repr

/-- One transaction of the host with the block. No command changes the input or the output of a running job
(70_reset_and_hazards.md R101). -/
def transact : Command → State → Outcome State Fault Refusal
  | .reset, s => .next (hostReset s)
  | .start bytes, s => hostStart bytes s
  | .step, s => step s

/-- Polling STATUS, at any time (70_reset_and_hazards.md R95 step 4). notes/assumptions/12.md. -/
def hostPoll (s : State) : BitVec 2 := s.status.code

/-- What the host reads after a job (20_memory.md R41). -/
structure Report where
  status : BitVec 2
  cause : BitVec 2
  errOffset : Half
  errStart : Half
  ip : Nat
  olen : Nat
  out : Memory
deriving DecidableEq, Repr

/-- The registers and the output, readable only at DONE or ERROR (20_memory.md R41, H2). notes/assumptions/12.md. -/
def hostReport (s : State) : Outcome Report Fault Refusal :=
  match s.status with
  | .done | .error =>
    .next { status := s.status.code, cause := s.cause.code, errOffset := s.errOffset, errStart := s.errStart
            ip := s.src.ip, olen := s.olen, out := s.out }
  | .idle | .busy => .refused .readBeforeEnd

/-- The result of a job (42_output_engine.md R81): bytes, or an error without any byte. -/
inductive JobResult where
  | ok (bytes : List Byte)
  | err (cause : Cause) (errOffset errStart : Half)
deriving DecidableEq, Repr

/-- The result of the job that has ended, if one has (42_output_engine.md R81, 70_reset_and_hazards.md R96). -/
def jobResult (s : State) : Option JobResult :=
  match s.status with
  | .done => some (.ok s.out.bytes)
  | .error => some (.err s.cause s.errOffset s.errStart)
  | .idle | .busy => none

/-- At most `k` STEPs, while STATUS is BUSY (42_output_engine.md R81). -/
def runJob : Nat → State → Outcome State Fault Refusal
  | 0, s => .next s
  | k + 1, s =>
    match s.status with
    | .busy =>
      match step s with
      | .next s' => runJob k s'
      | .fault f => .fault f
      | .refused r => .refused r
    | .idle | .done | .error => .next s

end Sys2Proof.Machine
end

