-- ==== Sys2Proof/Safety.lean ====
section
/-! DEFINITION. What holds of the block at every token boundary, in the terms the statements use. -/

namespace Sys2Proof

/-- The input space is `inp[0..in_len)` and `ip` stands in it or at its end (20_memory.md R27, R28). -/
def Source.inputOk (c : Source) : Prop := c.inp.covers c.inLen = true ∧ c.ip ≤ c.inLen

/-- A command word with between 1 and 16 unread bits, and zeros above them (10_state.md R14, R15). -/
def Source.wordOk (c : Source) : Prop := 1 ≤ c.cnt ∧ c.cnt ≤ Config.cwWidth ∧ c.cw.toNat < 2 ^ c.cnt

namespace Machine

/-- The output buffer holds a value at exactly the indices below `olen` (10_state.md R17). -/
def State.outputOk (s : State) : Prop := s.out.covers s.olen = true

/-- The status registers agree with each other (10_state.md R20, R21): a cause exactly in ERROR, and error information only for
InvalidAddress. -/
def State.statusOk (s : State) : Prop :=
  (s.cause = .none ↔ s.status ≠ .error) ∧ (s.cause ≠ .invalidAddress → s.errOffset = 0 ∧ s.errStart = 0)

/-- THE INVARIANT OF A TOKEN BOUNDARY: both spaces are whole, a running job has an unread bit, the status registers agree, the
output is within its ceiling unless the job has failed and within its capacity always (10_state.md R18, 00_scope.md R9), and
no temporary is left (R22). -/
structure State.Inv (s : State) : Prop where
  input : s.src.inputOk
  count : s.src.cnt ≤ Config.cwWidth
  word : s.status = .busy → s.src.wordOk
  output : s.outputOk
  status : s.statusOk
  ceiling : s.status ≠ .error → s.olen ≤ Config.sizeLimit
  capacity : s.olen ≤ Config.outCap
  boundary : s.temps = Temps.clear

/-- The job has ended (70_reset_and_hazards.md R96). -/
def State.ended (s : State) : Prop := s.status = .done ∨ s.status = .error

end Machine

end Sys2Proof
end

