-- ==== Sys2Proof/Certificates/Slice0/Obligations.lean ====
section
/-! DEFINITION. The statements for the provers. What stands in `Sys2Proof.Claims` is written from the spec's tables, apart from
the model's own computations, so that a statement compares the two. -/

namespace Sys2Proof.Claims

open Sys2Proof.Machine

/-! ### The spec's tables in closed form -/

/-- `offset_h` by the right-hand column of 30_encoding.md Table 2, as a number. -/
def tableHigh : OffhCode → Nat
  | .oh2 a => 0xFE + bitNat a
  | .oh3 a => 0xFC + bitNat a
  | .oh5 a b => 0xF8 + (2 * bitNat a + bitNat b)
  | .oh7 a b c => 0xF0 + (4 * bitNat a + 2 * bitNat b + bitNat c)
  | .oh8 a b c d => 0xE0 + (8 * bitNat a + 4 * bitNat b + 2 * bitNat c + bitNat d)

/-- The length by 30_encoding.md Table 3. -/
def tableLength : LenCode → Nat
  | .l3 => 3
  | .l4 => 4
  | .l5 => 5
  | .l6 => 6
  | .l7 b => 7 + bitNat b
  | .l17 v => 17 + v.toNat
  | .l9 b => 9 + b.toNat

/-- The displacement back from the end of the output, `-offset`, of a reference, by 30_encoding.md R52; 0 for the rest. -/
def distance : Instr → Nat
  | .sref l => 256 - l.toNat
  | .mref l h => 2304 - (256 * h.toNat + l.toNat)
  | .bref l o _ => 65536 - (256 * tableHigh o + l.toNat)
  | _ => 0

/-- The number of bytes a reference copies, by 30_encoding.md R52; 0 for the rest. -/
def copyLength : Instr → Nat
  | .sref _ | .mref _ _ => 2
  | .bref _ _ n => tableLength n
  | _ => 0

/-- The back-references. -/
def isReference : Instr → Bool
  | .sref _ | .mref _ _ | .bref _ _ _ => true
  | _ => false

/-- The two kinds of items (30_encoding.md R46). -/
def isCommandBit : Item → Bool
  | .bit _ => true
  | .byte _ => false

/-- See `isCommandBit`. -/
def isRawByte : Item → Bool
  | .bit _ => false
  | .byte _ => true

/-- The command bits a sub-code of Table 2 takes. -/
def offhBits : OffhCode → Nat
  | .oh2 _ => 2
  | .oh3 _ => 3
  | .oh5 _ _ => 5
  | .oh7 _ _ _ => 7
  | .oh8 _ _ _ _ => 8

/-- The command bits a sub-code of Table 3 takes. -/
def lenBits : LenCode → Nat
  | .l3 => 1
  | .l4 => 2
  | .l5 => 3
  | .l6 => 4
  | .l7 _ => 6
  | .l17 _ => 6
  | .l9 _ => 9

/-- The command bits a token takes (41_tokens.md R73); 0 for a sub-code. -/
def tokenBits : Instr → Nat
  | .lit _ => 1
  | .eof => 3
  | .sref _ => 3
  | .mref _ _ => 6
  | .bref _ o n => 2 + offhBits o + lenBits n
  | _ => 0

/-- The raw bytes a token takes (41_tokens.md R73); 0 for a sub-code. -/
def tokenBytes : Instr → Nat
  | .lit _ | .eof | .sref _ | .mref _ _ => 1
  | .bref _ _ (.l17 _) => 2
  | .bref _ _ _ => 1
  | _ => 0

/-! ### Frames -/

/-- Nothing but the output buffer, its length, STATUS and CAUSE may differ, and no temporary is left: the frame of a token. -/
def OnlyOutputChanged (s t : State) : Prop :=
  t.src = s.src ∧ t.errOffset = s.errOffset ∧ t.errStart = s.errStart ∧ t.temps = Temps.clear

/-- The job goes on as it was: STATUS and CAUSE stand. -/
def JobGoesOn (s t : State) : Prop := t.status = s.status ∧ t.cause = s.cause

/-- `n` bytes were appended and no other byte of the output changed. -/
def Appended (n : Nat) (s t : State) : Prop :=
  t.olen = s.olen + n ∧ ∀ a, (a < s.olen ∨ s.olen + n ≤ a) → t.out.read a = s.out.read a

/-- The bytes at `olen, ..., olen + n - 1` repeat the last `d` bytes from before, with period `d` (42_output_engine.md R77). -/
def RepeatsLast (d n : Nat) (s t : State) : Prop :=
  ∀ j, j < n → t.out.read (s.olen + j) = s.out.read (s.olen - d + j % d)

/-- What a reference does where it neither reaches behind the start of the output nor passes its ceiling. -/
def CompletesAsCopy (i : Instr) : Prop :=
  ∀ s : State, s.outputOk → distance i ≤ s.olen → s.olen + copyLength i ≤ 65535 →
    ∃ t, exec i s = .next t ∧ RepeatsLast (distance i) (copyLength i) s t ∧ Appended (copyLength i) s t ∧
      JobGoesOn s t ∧ OnlyOutputChanged s t

/-! ### Streams -/

/-- The source is about to deliver these items: what is left of its command word and the bytes at `ip` are what the
assembler makes of them (30_encoding.md R44). -/
def Carries (c : Source) (its : List Item) : Prop :=
  1 ≤ c.cnt ∧ c.cnt ≤ 16 ∧ c.cw = wordOf (place its c.cnt).1 ∧
    ∀ k b, (place its c.cnt).2[k]? = some b → c.ip + k < c.inLen ∧ c.inp.read (c.ip + k) = some b

/-- Decode `n` tokens, one after the other. -/
def decodeTokens : Nat → Source → Option (List Instr × Source)
  | 0, c => some ([], c)
  | n + 1, c =>
    match decodeToken c with
    | .ok i c' => (decodeTokens n c').map fun p => (i :: p.1, p.2)
    | _ => none

/-- The same source with another input. -/
def withInput (m : Memory) (n : Nat) (s : State) : State := { s with src := { s.src with inp := m, inLen := n } }

end Sys2Proof.Claims

open Sys2Proof Sys2Proof.Machine Sys2Proof.Claims

/-! ### Reset, START and the host -/

/-- Reset, in any state, gives the registers the values of 10_state.md R26 (R93), and no STEP is enabled. Nothing is said of
`cw` and `cnt`, which the spec leaves without value (notes/assumptions/3.md). -/
def Obligations.ResetLeavesTheStatedRegisters : Prop :=
  ∀ s : State, transact .reset s = .next (hostReset s) ∧
    (hostReset s).status = .idle ∧ (hostReset s).cause = .none ∧ (hostReset s).errOffset = 0 ∧ (hostReset s).errStart = 0 ∧
    (hostReset s).src.ip = 0 ∧ (hostReset s).olen = 0 ∧ (∀ a, (hostReset s).out.read a = none) ∧
    step (hostReset s) = .refused .stepNotBusy

/-- The state after reset meets the invariant of a token boundary. Three of the invariant's clauses rest here on reset values that
are the model's choice, since the spec gives none: the input clause on the empty input (notes/assumptions/1.md), the count clause
on `cnt = 0` (notes/assumptions/3.md), the boundary clause on the cleared temporaries (notes/assumptions/7.md). The other clauses
rest on 10_state.md R26. -/
def Obligations.ResetMeetsTheBoundaryInvariant : Prop := State.Inv State.reset

/-- 70_reset_and_hazards.md R94: START begins a job on an input of two bytes or more; on a shorter one it raises Truncation and
writes neither `cw` nor `cnt`; while BUSY it is refused. That the output and the temporaries are cleared is the model's reading
(notes/assumptions/10.md). -/
def Obligations.StartBeginsAJob : Prop :=
  ∀ (s : State) (bytes : List Byte),
    (s.status = .busy → hostStart bytes s = .refused .startWhileBusy) ∧
    (s.status ≠ .busy → ∀ lo hi rest, bytes = lo :: hi :: rest →
      ∃ t, hostStart bytes s = .next t ∧ t.status = .busy ∧ t.cause = .none ∧ t.errOffset = 0 ∧ t.errStart = 0 ∧
        t.src.ip = 2 ∧ t.src.cw.toNat = 256 * hi.toNat + lo.toNat ∧ t.src.cnt = 16 ∧ t.olen = 0 ∧
        t.src.inLen = bytes.length ∧ (∀ a, t.src.inp.read a = bytes[a]?) ∧ (∀ a, t.out.read a = none) ∧
        t.temps = Temps.clear) ∧
    (s.status ≠ .busy → bytes.length < 2 →
      ∃ t, hostStart bytes s = .next t ∧ t.status = .error ∧ t.cause = .truncation ∧ t.errOffset = 0 ∧ t.errStart = 0 ∧
        t.olen = 0 ∧ t.src.cw = s.src.cw ∧ t.src.cnt = s.src.cnt)

/-- START from a state that meets the invariant gives one that meets it. -/
def Obligations.StartKeepsTheBoundaryInvariant : Prop :=
  ∀ (s t : State) (bytes : List Byte), s.Inv → hostStart bytes s = .next t → t.Inv

/-- 42_output_engine.md R80, 60_exceptions.md R89: STEP is enabled only while STATUS is BUSY. -/
def Obligations.StepIsRefusedUnlessBusy : Prop :=
  ∀ s : State, s.status ≠ .busy → step s = .refused .stepNotBusy

/-- 20_memory.md R41: the registers and the output are readable only at DONE or ERROR, and then read as the state holds them. That
the poll of STATUS alone is left out of the refusal is the model's reading (notes/assumptions/12.md). -/
def Obligations.HostReadsOnlyAfterTheJob : Prop :=
  ∀ s : State,
    (¬ s.ended → hostReport s = .refused .readBeforeEnd) ∧
    (s.ended → ∃ r, hostReport s = .next r ∧ r.status = s.status.code ∧ r.cause = s.cause.code ∧
      r.errOffset = s.errOffset ∧ r.errStart = s.errStart ∧ r.ip = s.src.ip ∧ r.olen = s.olen ∧ r.out = s.out)

/-- The numbers of STATUS and CAUSE (10_state.md R19, R20). That STATUS can be polled in EVERY state is the model's reading: 20_memory.md
R41 lets the status registers be read only at DONE or ERROR, and 70_reset_and_hazards.md R95 step 4 has the host poll STATUS until
then (notes/assumptions/12.md). -/
def Obligations.StatusAndCauseReadAsNumbered : Prop :=
  (∀ s : State, hostPoll s = s.status.code) ∧
  Status.idle.code = 0 ∧ Status.busy.code = 1 ∧ Status.done.code = 2 ∧ Status.error.code = 3 ∧
    Cause.none.code = 0 ∧ Cause.truncation.code = 1 ∧ Cause.invalidAddress.code = 2 ∧ Cause.outputSizeOverflow.code = 3

/-- 42_output_engine.md R81: the result of a job is `out[0..olen)` at DONE and the error registers at ERROR. -/
def Obligations.JobResultIsTheOutputOrTheError : Prop :=
  ∀ s : State, s.outputOk →
    (s.status = .done → ∃ bytes, jobResult s = some (.ok bytes) ∧ bytes.length = s.olen ∧
      ∀ i, i < s.olen → bytes[i]? = s.out.read i) ∧
    (s.status = .error → jobResult s = some (.err s.cause s.errOffset s.errStart)) ∧
    (¬ s.ended → jobResult s = none)

/-! ### The Command Bit Source -/

/-- 20_memory.md R28: a read of one or two bytes at `ip` answers exactly when it stays inside the input, and is truncated
exactly when it does not; two bytes are read low byte first. -/
def Obligations.InputReadsEndAtTheInputLength : Prop :=
  ∀ c : Source, c.inp.covers c.inLen = true →
    (c.ip + 1 ≤ c.inLen → ∃ v, c.inp.read c.ip = some v ∧ inByte c = .ok v { c with ip := c.ip + 1 }) ∧
    (c.inLen < c.ip + 1 → inByte c = .truncated c) ∧
    (c.ip + 2 ≤ c.inLen → ∃ lo hi, c.inp.read c.ip = some lo ∧ c.inp.read (c.ip + 1) = some hi ∧
      loadCw c = .ok () { c with ip := c.ip + 2, cw := BitVec.ofNat 16 (256 * hi.toNat + lo.toNat), cnt := 16 }) ∧
    (c.inLen < c.ip + 2 → loadCw c = .truncated c)

/-- 40_bit_source.md R61: NEXTBIT delivers the lowest bit of `cw`; the 16th bit of a word is delivered only after the next
word has been loaded, and not at all if it cannot be; `cnt` is then left at 0 (10_state.md R15). -/
def Obligations.NextBitRefillsBeforeItDelivers : Prop :=
  ∀ c : Source,
    (2 ≤ c.cnt → nextBit c = .ok (c.cw.getLsbD 0) { c with cnt := c.cnt - 1, cw := c.cw >>> 1 }) ∧
    (c.cnt = 1 → ∀ lo hi, c.ip + 2 ≤ c.inLen → c.inp.read c.ip = some lo → c.inp.read (c.ip + 1) = some hi →
      nextBit c = .ok (c.cw.getLsbD 0)
        { c with ip := c.ip + 2, cw := BitVec.ofNat 16 (256 * hi.toNat + lo.toNat), cnt := 16 }) ∧
    (c.cnt = 1 → c.inLen < c.ip + 2 → nextBit c = .truncated { c with cnt := 0, cw := c.cw >>> 1 })

/-- 20_memory.md R33, 40_bit_source.md R62: a field of 3 bits is big-endian, and a field of 1 bit is the bit. -/
def Obligations.FieldsAreBigEndian : Prop :=
  (∀ (c0 c1 c2 c3 : Source) (b0 b1 b2 : Bool),
    nextBit c0 = .ok b0 c1 → nextBit c1 = .ok b1 c2 → nextBit c2 = .ok b2 c3 →
      nextBits 3 c0 = .ok (bitNat b0 * 4 + bitNat b1 * 2 + bitNat b2) c3) ∧
  (∀ (c0 c1 : Source) (b : Bool), nextBit c0 = .ok b c1 → nextBits 1 c0 = .ok (bitNat b) c1)

/-- The fields inside the decode trees are NEXTBITS, truncation included, at every width (40_bit_source.md R62). -/
def Obligations.TreeFieldsAreNextBits : Prop :=
  ∀ (n : Nat) (k : Nat → Reader Instr) (c : Source),
    (Reader.field n 0 k).run c = (nextBits n c).bind fun v c' => (k v).run c'

/-- 10_state.md R14, 40_bit_source.md R63: between two refills `cw` is the loaded word shifted right by the number of bits
taken, NEXTBIT delivers the bit of that number, lowest first (20_memory.md R32), and the 16th bit brings in the next word, the two
bytes at `ip`, low byte first (40_bit_source.md R60, 20_memory.md R31); a raw byte moves neither. -/
def Obligations.CommandWordIsTheLoadedWordShifted : Prop :=
  ∀ (c c' : Source) (w : Half), 1 ≤ c.cnt → c.cnt ≤ 16 → c.cw = w >>> (16 - c.cnt) →
    (∀ b, nextBit c = .ok b c' → b = w.getLsbD (16 - c.cnt) ∧
      (2 ≤ c.cnt → c'.cnt = c.cnt - 1 ∧ c'.cw = w >>> (16 - c'.cnt) ∧ c'.ip = c.ip) ∧
      (c.cnt = 1 → c'.cnt = 16 ∧ c'.ip = c.ip + 2 ∧ ∃ lo hi, c.inp.read c.ip = some lo ∧
        c.inp.read (c.ip + 1) = some hi ∧ c'.cw = BitVec.ofNat 16 (256 * hi.toNat + lo.toNat))) ∧
    (∀ v, inByte c = .ok v c' → c'.cnt = c.cnt ∧ c'.cw = c.cw ∧ c'.ip = c.ip + 1)

/-! ### STEP -/

/-- 42_output_engine.md R80: while BUSY, STEP reads what the decoder's stage calls for (at a token boundary, one token) and is
the execution of the instruction read, from the state whose source stands behind it. The stages behind a token boundary are the
model's choice (notes/assumptions/8.md). -/
def Obligations.StepRunsTheDecodedInstruction : Prop :=
  ∀ (s : State) (t : Reader Instr) (i : Instr) (c : Source),
    s.status = .busy → treeAt s.temps.stage = some t → t.run s.src = .ok i c → step s = exec i (s.withSource c)

/-- 60_exceptions.md R84, R87: a read that fails inside STEP ends the job in Truncation; the output is as it was, no error
information is recorded, and `ip` lies between the failing read and the end of the input (92_eei_decisions.md D16,
93_implementation_defined.md U4), whatever the free value is (notes/assumptions/6.md). That the output stands as R87 says is followed
although no result contains it (notes/assumptions/11.md). -/
def Obligations.ShortInputRaisesTruncation : Prop :=
  ∀ (s : State) (t : Reader Instr) (c : Source),
    s.status = .busy → treeAt s.temps.stage = some t → s.src.ip ≤ s.src.inLen → t.run s.src = .truncated c →
    ∃ u, step s = .next u ∧ u.status = .error ∧ u.cause = .truncation ∧ u.errOffset = s.errOffset ∧
      u.errStart = s.errStart ∧ u.out = s.out ∧ u.olen = s.olen ∧ u.temps = Temps.clear ∧
      u.src.cw = c.cw ∧ u.src.cnt = c.cnt ∧ u.src.inp = s.src.inp ∧ u.src.inLen = s.src.inLen ∧
      s.src.ip ≤ c.ip ∧ c.ip ≤ u.src.ip ∧ u.src.ip ≤ s.src.inLen

/-- Words written out from 30_encoding.md Table 1 and 95_test_vectors.md decode to their tokens. -/
def Obligations.WrittenWordsDecode : Prop :=
  (∃ c, decodeToken { inp := Memory.ofBytes [0x01, 0x00, 0x41], inLen := 3, ip := 2, cw := 0x0001, cnt := 16 } =
    .ok (.lit 0x41) c) ∧
  (∃ c, decodeToken { inp := Memory.ofBytes [0x00, 0x00, 0xFF], inLen := 3, ip := 2, cw := 0x0000, cnt := 16 } =
    .ok .eof c) ∧
  (∃ c, decodeToken { inp := Memory.ofBytes [0x00, 0x00, 0xFE], inLen := 3, ip := 2, cw := 0x0000, cnt := 16 } =
    .ok (.sref 0xFE) c) ∧
  (∃ c, decodeToken { inp := Memory.ofBytes [0x3C, 0x00, 0xD4], inLen := 3, ip := 2, cw := 0x003C, cnt := 16 } =
    .ok (.mref 0xD4 7) c) ∧
  (∃ c, decodeToken { inp := Memory.ofBytes [0x06, 0x03, 0x48], inLen := 3, ip := 2, cw := 0x0306, cnt := 16 } =
    .ok (.bref 0x48 (.oh7 true false false) .l3) c)

/-! ### The tokens -/

/-- LIT (42_output_engine.md R74, R79): the byte is appended at `olen`; nothing else changes. -/
def Obligations.LitAppendsItsByte : Prop :=
  ∀ (v : Byte) (s : State), s.olen < 65535 →
    ∃ t, exec (.lit v) s = .next t ∧ t.out.read s.olen = some v ∧ Appended 1 s t ∧ JobGoesOn s t ∧ OnlyOutputChanged s t

/-- EOF (42_output_engine.md R78): STATUS becomes DONE; nothing else changes. -/
def Obligations.EofEndsTheJob : Prop :=
  ∀ s : State, ∃ t, exec .eof s = .next t ∧ t.status = .done ∧ t.cause = s.cause ∧ t.out = s.out ∧ t.olen = s.olen ∧
    OnlyOutputChanged s t

/-- SREF copies two bytes from `256 - offset_l` back (41_tokens.md R68, 42_output_engine.md R77). -/
def Obligations.SrefCopiesTwoBytes : Prop := ∀ l : Byte, CompletesAsCopy (.sref l)

/-- MREF copies two bytes from `2304 - (256·hhh + offset_l)` back (41_tokens.md R69, 42_output_engine.md R77). -/
def Obligations.MrefCopiesTwoBytes : Prop := ∀ (l : Byte) (h : BitVec 3), CompletesAsCopy (.mref l h)

/-- BREF copies Table 3's length from Table 2's displacement back, overlapping where the length is larger
(41_tokens.md R70 to R72, 42_output_engine.md R77). -/
def Obligations.BrefCopiesItsLength : Prop :=
  ∀ (l : Byte) (o : OffhCode) (n : LenCode), CompletesAsCopy (.bref l o n)

/-- 42_output_engine.md R75, R76: a reference that reaches behind the start of the output raises InvalidAddress, records its
offset and the wrapped start index, and writes no output byte (60_exceptions.md R87; that `out` and `olen` stand after ERROR:
notes/assumptions/11.md). -/
def Obligations.FarReferencesRaiseInvalidAddress : Prop :=
  ∀ (i : Instr) (s : State), isReference i = true → s.olen ≤ 65535 → s.olen < distance i →
    ∃ t, exec i s = .next t ∧ t.status = .error ∧ t.cause = .invalidAddress ∧
      asI16 t.errOffset = -(distance i : Int) ∧ t.errStart.toNat = 65536 + s.olen - distance i ∧
      t.out = s.out ∧ t.olen = s.olen ∧ t.src = s.src ∧ t.temps = Temps.clear

/-- 42_output_engine.md R79, 60_exceptions.md R86, R87: the token that takes the output past 65535 bytes raises
OutputSizeOverflow and records nothing. That the whole token then stands in the output is 42_output_engine.md R77 with R87; the
model keeps it so after ERROR, where no result contains it and R99 would let a copy stop earlier (notes/assumptions/11.md). -/
def Obligations.TokensPastTheCeilingRaiseOverflow : Prop :=
  (∀ (v : Byte) (s : State), 65535 ≤ s.olen →
    ∃ t, exec (.lit v) s = .next t ∧ t.status = .error ∧ t.cause = .outputSizeOverflow ∧ t.out.read s.olen = some v ∧
      Appended 1 s t ∧ OnlyOutputChanged s t) ∧
  (∀ (i : Instr) (s : State), isReference i = true → s.outputOk → s.olen ≤ 65535 → distance i ≤ s.olen →
    65535 < s.olen + copyLength i →
    ∃ t, exec i s = .next t ∧ t.status = .error ∧ t.cause = .outputSizeOverflow ∧
      RepeatsLast (distance i) (copyLength i) s t ∧ Appended (copyLength i) s t ∧ OnlyOutputChanged s t)

/-! ### The sub-codes of a big reference -/

/-- The offset-high sub-codes give `offset_h` by the closed forms of 30_encoding.md Table 2 and 41_tokens.md R71; nothing else
changes but the decoder's stage, which is the model's own (notes/assumptions/8.md). -/
def Obligations.OffhRowsGiveTheHighByte : Prop :=
  (∀ (a : Bool) (s : State), exec (.oh2 a) s =
    .next { s with temps := { s.temps with offsetH := BitVec.ofNat 8 (0xFE + bitNat a), stage := .len } }) ∧
  (∀ (a : Bool) (s : State), exec (.oh3 a) s =
    .next { s with temps := { s.temps with offsetH := BitVec.ofNat 8 (0xFC + bitNat a), stage := .len } }) ∧
  (∀ (a b : Bool) (s : State), exec (.oh5 a b) s =
    .next { s with temps := { s.temps with offsetH := BitVec.ofNat 8 (tableHigh (.oh5 a b)), stage := .len } }) ∧
  (∀ (a b c : Bool) (s : State), exec (.oh7 a b c) s =
    .next { s with temps := { s.temps with offsetH := BitVec.ofNat 8 (tableHigh (.oh7 a b c)), stage := .len } }) ∧
  (∀ (a b c d : Bool) (s : State), exec (.oh8 a b c d) s =
    .next { s with temps := { s.temps with offsetH := BitVec.ofNat 8 (tableHigh (.oh8 a b c d)), stage := .len } })

/-- The length sub-codes give `length` by 30_encoding.md Table 3 and 41_tokens.md R72, the long form without an 8-bit wrap;
nothing else changes but the decoder's stage, which is the model's own (notes/assumptions/8.md). -/
def Obligations.LenRowsGiveTheLength : Prop :=
  (∀ s : State, exec .l3 s = .next { s with temps := { s.temps with length := 3, stage := .resolve } }) ∧
  (∀ s : State, exec .l4 s = .next { s with temps := { s.temps with length := 4, stage := .resolve } }) ∧
  (∀ s : State, exec .l5 s = .next { s with temps := { s.temps with length := 5, stage := .resolve } }) ∧
  (∀ s : State, exec .l6 s = .next { s with temps := { s.temps with length := 6, stage := .resolve } }) ∧
  (∀ (b : Bool) (s : State), exec (.l7 b) s =
    .next { s with temps := { s.temps with length := BitVec.ofNat 16 (7 + bitNat b), stage := .resolve } }) ∧
  (∀ (v : Byte) (s : State), exec (.l17 v) s =
    .next { s with temps := { s.temps with length := BitVec.ofNat 16 (17 + v.toNat), stage := .resolve } }) ∧
  (∀ (b : BitVec 3) (s : State), exec (.l9 b) s =
    .next { s with temps := { s.temps with length := BitVec.ofNat 16 (9 + b.toNat), stage := .resolve } })

/-- 41_tokens.md R71: the five paths of OFFH_BIG give the table's high bytes and partition 0xE0..0xFF without overlap. -/
def Obligations.OffhCodesPartitionTheHighBytes : Prop :=
  (∀ o : OffhCode, (offhHigh o).toNat = tableHigh o ∧ 0xE0 ≤ tableHigh o ∧ tableHigh o ≤ 0xFF) ∧
  (∀ b : Nat, 0xE0 ≤ b → b ≤ 0xFF → ∃ o, tableHigh o = b ∧ ∀ o', tableHigh o' = b → o' = o)

/-- 41_tokens.md R72, 90_conflicts.md C2: the seven sub-codes of LEN_BIG give the table's lengths and partition 3..272. -/
def Obligations.LenCodesPartitionTheLengths : Prop :=
  (∀ n : LenCode, (lenValue n).toNat = tableLength n ∧ 3 ≤ tableLength n ∧ tableLength n ≤ 272) ∧
  (∀ k : Nat, 3 ≤ k → k ≤ 272 → ∃ n, tableLength n = k ∧ ∀ n', tableLength n' = k → n' = n)

/-- A big reference run atomically is its parts run one after the other: the offset-high row from the opened reference, the
length row, and then, where the state is BUSY, the STEP that is left. That the parts run as steps at all is the model's
choice (notes/assumptions/8.md); that they compose to BREF is 41_tokens.md R70. -/
def Obligations.BrefIsItsSubCodesInOrder : Prop :=
  ∀ (l : Byte) (o : OffhCode) (n : LenCode) (s : State), s.status = .busy →
    ∃ s1 s2, exec (Instr.ofOffh o) (openReference l s) = .next s1 ∧ s1.temps.stage = .len ∧
      exec (Instr.ofLen n) s1 = .next s2 ∧ s2.temps.stage = .resolve ∧ step s2 = exec (.bref l o n) s

/-! ### Operands and start indices -/

/-- 30_encoding.md R57: what a decoded reference cannot be. -/
def Obligations.DecodedReferencesStayInRange : Prop :=
  ∀ (i : Instr) (offset length : Half), i.wf = true → tokenOf i = some (.backReference offset length) →
    -8192 ≤ asI16 offset ∧ asI16 offset ≤ -1 ∧ 2 ≤ length.toNat ∧ length.toNat ≤ 272 ∧
    (length.toNat = 2 → -2304 ≤ asI16 offset ∧ asI16 offset ≤ -2)

/-- 30_encoding.md R56: each token value has exactly one encoding, in the form its ranges say. -/
def Obligations.EachTokenValueHasOneEncoding : Prop :=
  (∀ i j : Instr, i.wf = true → j.wf = true → i.isToken = true → tokenOf i = tokenOf j → i = j) ∧
  (∀ v : Byte, tokenOf (.lit v) = some (.literal v)) ∧ tokenOf .eof = some .endOfFile ∧
  (∀ off : Int, -256 ≤ off → off ≤ -2 →
    ∃ l, (Instr.sref l).wf = true ∧ tokenOf (.sref l) = some (.backReference (BitVec.ofInt 16 off) 2)) ∧
  (∀ off : Int, -2304 ≤ off → off ≤ -257 →
    ∃ l h, tokenOf (.mref l h) = some (.backReference (BitVec.ofInt 16 off) 2)) ∧
  (∀ (off : Int) (len : Nat), -8192 ≤ off → off ≤ -1 → 3 ≤ len → len ≤ 272 →
    ∃ l o n, tokenOf (.bref l o n) = some (.backReference (BitVec.ofInt 16 off) (BitVec.ofNat 16 len)))

/-- 42_output_engine.md R75, R76: the start index wraps at 16 bits: it is exact when the displacement stays inside the output,
65536 more otherwise, and the bounds check fails in exactly the second case. -/
def Obligations.StartIndexWrapsAtSixteenBits : Prop :=
  ∀ (olen : Nat) (offset : Half), olen ≤ 65535 → asI16 offset < 0 →
    (-(asI16 offset) ≤ olen → ((startIndex olen offset).toNat : Int) = olen + asI16 offset ∧
      startInvalid (startIndex olen offset) olen = false) ∧
    ((olen : Int) < -(asI16 offset) → ((startIndex olen offset).toNat : Int) = 65536 + olen + asI16 offset ∧
      startInvalid (startIndex olen offset) olen = true)

/-! ### Encoding -/

/-- DECODE AND ENCODE AGREE, in a stream: from a source that carries the encoding of a well-formed instruction and any items
behind it, wherever the command word stands, the decoder of its stage reads exactly that instruction and the source then
carries the rest (30_encoding.md R44, R46, R53; 40_bit_source.md R61). That a sub-code is read at a stage of its own is the model's
choice (notes/assumptions/8.md). -/
def Obligations.DecodingUndoesEncodingInTheStream : Prop :=
  ∀ (i : Instr) (t : Reader Instr) (rest : List Item) (c : Source),
    i.wf = true → treeAt i.stage = some t → Carries c (encode i ++ rest) →
    ∃ c', t.run c = .ok i c' ∧ Carries c' rest ∧ c'.inp = c.inp ∧ c'.inLen = c.inLen

/-- An assembled program decodes to itself: START on its bytes, with anything behind them, and one decode per token give the
program back and consume exactly its bytes (30_encoding.md R43, R44, R58). -/
def Obligations.AssembledProgramsDecodeToThemselves : Prop :=
  ∀ (p : List Instr) (trailing : List Byte), (∀ i ∈ p, i.wf = true ∧ i.isToken = true) →
    ∃ c c', sourceOn (assemble p ++ trailing) = .ok c c ∧ decodeTokens p.length c = some (p, c') ∧
      c'.ip = (assemble p).length

/-- The other direction: whatever items a stage's tree reads as an instruction are the encoding of that instruction, and the
instruction is well-formed and of that stage. So no two instructions of a stage share an encoding, and none begins another
(30_encoding.md R54, R55). The stages of the sub-codes are the model's choice (notes/assumptions/8.md). -/
def Obligations.DecodedItemsAreTheEncoding : Prop :=
  ∀ (g : Stage) (t : Reader Instr) (its rest : List Item) (i : Instr),
    treeAt g = some t → t.runItems its = some (i, rest) →
    i.wf = true ∧ i.stage = g ∧ its = encode i ++ rest

/-- 30_encoding.md R55: the code is complete: where five input bytes are left, which is the most a token can need, every
input decodes to a well-formed token. -/
def Obligations.EveryLongEnoughInputDecodes : Prop :=
  ∀ c : Source, c.inp.covers c.inLen = true → 1 ≤ c.cnt → c.cnt ≤ 16 → c.ip + 5 ≤ c.inLen →
    ∃ i c', decodeToken c = .ok i c' ∧ i.wf = true ∧ i.isToken = true

/-- 41_tokens.md R73: the command bits and raw bytes of each token, in its encoding and in what decoding it moves: two input
bytes for each word its bits reach the end of. -/
def Obligations.TokensConsumeTheirBitsAndBytes : Prop :=
  (∀ i : Instr, i.isToken = true → (encode i).countP isCommandBit = tokenBits i ∧
    (encode i).countP isRawByte = tokenBytes i) ∧
  (∀ (c c' : Source) (i : Instr), 1 ≤ c.cnt → c.cnt ≤ 16 → decodeToken c = .ok i c' →
    c'.ip = c.ip + tokenBytes i + 2 * ((16 - c.cnt + tokenBits i) / 16) ∧
    c'.cnt = 16 - (16 - c.cnt + tokenBits i) % 16)

/-- 30_encoding.md R45: where EOF's last bit is the last of its word, the job is DONE only if two more bytes are there, whatever
they hold, and ends in Truncation if they are not. -/
def Obligations.EofAtTheEndOfAWordNeedsTwoMoreBytes : Prop :=
  ∀ s : State, s.status = .busy → s.temps.stage = .token → s.src.inp.covers s.src.inLen = true →
    s.src.cnt = 3 → s.src.cw = 0 → s.src.inp.read s.src.ip = some 0xFF →
    (s.src.ip + 3 ≤ s.src.inLen → ∃ t, step s = .next t ∧ t.status = .done ∧ t.src.ip = s.src.ip + 3 ∧ t.src.cnt = 16) ∧
    (s.src.inLen < s.src.ip + 3 → ∃ t, step s = .next t ∧ t.status = .error ∧ t.cause = .truncation)

/-- 30_encoding.md R44, 70_reset_and_hazards.md R97: where LIT's flag is the last bit of its word, the next word is read before
the literal's value. -/
def Obligations.RefillComesBeforeTheRawByte : Prop :=
  ∀ (c : Source) (lo hi v : Byte), c.cnt = 1 → c.cw = 1 → c.ip + 3 ≤ c.inLen → c.inp.read c.ip = some lo →
    c.inp.read (c.ip + 1) = some hi → c.inp.read (c.ip + 2) = some v →
    decodeToken c =
      .ok (.lit v) { c with ip := c.ip + 3, cw := BitVec.ofNat 16 (256 * hi.toNat + lo.toNat), cnt := 16 }

/-- 30_encoding.md R59: the pseudo-instruction RUN assembles to LIT and BREF and appends `n` copies of its byte wherever it
stands; it is refused outside 4..273. -/
def Obligations.RunAppendsCopies : Prop :=
  (∀ (v : Byte) (n : Nat), (n < 4 ∨ 273 < n) → asmRun v n = none) ∧
  (∀ (v : Byte) (n : Nat), 4 ≤ n → n ≤ 273 → ∃ r, asmRun v n = some [.lit v, r] ∧ r.wf = true ∧
    ∀ s : State, s.outputOk → s.olen + n ≤ 65535 →
      ∃ t u, exec (.lit v) s = .next t ∧ exec r t = .next u ∧ Appended n s u ∧
        (∀ j, j < n → u.out.read (s.olen + j) = some v) ∧ JobGoesOn s u ∧ OnlyOutputChanged s u)

/-- 30_encoding.md R59: the pseudo-instruction REF assembles to the one form that can encode it, and to nothing else. -/
def Obligations.RefPicksTheOneForm : Prop :=
  ∀ (off : Int) (len : Nat),
    (len = 2 → -256 ≤ off → off ≤ -2 → ∃ l, asmRef off len = some (.sref l) ∧ (Instr.sref l).wf = true ∧
      tokenOf (.sref l) = some (.backReference (BitVec.ofInt 16 off) 2)) ∧
    (len = 2 → -2304 ≤ off → off ≤ -257 → ∃ l h, asmRef off len = some (.mref l h) ∧
      tokenOf (.mref l h) = some (.backReference (BitVec.ofInt 16 off) 2)) ∧
    (3 ≤ len → len ≤ 272 → -8192 ≤ off → off ≤ -1 → ∃ l o n, asmRef off len = some (.bref l o n) ∧
      tokenOf (.bref l o n) = some (.backReference (BitVec.ofInt 16 off) (BitVec.ofNat 16 len))) ∧
    (¬ (len = 2 ∧ -2304 ≤ off ∧ off ≤ -2) → ¬ (3 ≤ len ∧ len ≤ 272 ∧ -8192 ≤ off ∧ off ≤ -1) → asmRef off len = none)

/-! ### The whole machine -/

/-- THE INVARIANT OF A TOKEN BOUNDARY IS KEPT BY EVERY STEP (10_state.md R14, R15, R17, R18, R20, R21, R22; 00_scope.md R9). That the
temporaries are cleared at a boundary is how the model holds R22 (notes/assumptions/7.md, 8.md), and what it says of the output in
ERROR is kept as R87 states it (notes/assumptions/11.md). -/
def Obligations.EveryStepKeepsTheBoundaryInvariant : Prop :=
  ∀ s t : State, s.Inv → step s = .next t → t.Inv

/-- From a state that meets the invariant and is BUSY, a STEP always answers a next state, and no fault of the model's own is
reached: the job goes on, or is DONE, which only EOF brings about, or has ended in one of the block's three errors, the only
things that can end it before EOF (30_encoding.md R55; 60_exceptions.md R84 to R86). -/
def Obligations.BusyStepsAlwaysComplete : Prop :=
  ∀ s : State, s.Inv → s.status = .busy →
    ∃ t, step s = .next t ∧
      ((t.status = .busy ∧ t.cause = .none) ∨
        (t.status = .done ∧ t.cause = .none ∧ ∃ c, decodeToken s.src = .ok .eof c) ∨
        (t.status = .error ∧
          (t.cause = .truncation ∨ t.cause = .invalidAddress ∨ t.cause = .outputSizeOverflow)))

/-- Every step from every state keeps the canonical form of both spaces. The form is the model's (notes/assumptions/5.md). -/
def Obligations.EveryStepKeepsMemoryCanonical : Prop :=
  ∀ s t : State, s.out.wf = true → s.src.inp.wf = true → step s = .next t → t.out.wf = true ∧ t.src.inp.wf = true

/-- 10_state.md R16, R17; 20_memory.md R27, R29, R42: from every state, a step leaves the input alone, never moves `ip` or
`olen` back, never changes a byte that was appended before, and gives no byte above the new `olen` a value. -/
def Obligations.StepsOnlyMoveForward : Prop :=
  ∀ s t : State, step s = .next t →
    t.src.inp = s.src.inp ∧ t.src.inLen = s.src.inLen ∧ s.src.ip ≤ t.src.ip ∧ s.olen ≤ t.olen ∧
    ∀ a, (a < s.olen ∨ t.olen ≤ a) → t.out.read a = s.out.read a

/-- 10_state.md R19, 42_output_engine.md R78: from a token boundary, a step ends in DONE exactly when it read EOF. -/
def Obligations.OnlyEofReachesDone : Prop :=
  ∀ s t : State, s.status = .busy → s.temps.stage = .token → step s = .next t →
    (t.status = .done ↔ ∃ c, decodeToken s.src = .ok .eof c)

/-- The table of 60_exceptions.md section 1: from a token boundary, Truncation comes from a failed read only, InvalidAddress from
a reference only, OutputSizeOverflow from a literal or a reference only. What it says of `olen` after ERROR is R87's
(notes/assumptions/11.md). -/
def Obligations.EachErrorComesFromItsTokens : Prop :=
  ∀ s t : State, s.status = .busy → s.temps.stage = .token → step s = .next t → t.status = .error →
    (t.cause = .truncation ∧ ∃ c, decodeToken s.src = .truncated c) ∨
    (t.cause = .invalidAddress ∧ ∃ i c, decodeToken s.src = .ok i c ∧ isReference i = true ∧ s.olen = t.olen) ∨
    (t.cause = .outputSizeOverflow ∧ 65535 < t.olen ∧
      ∃ i c, decodeToken s.src = .ok i c ∧ (isReference i = true ∨ ∃ v, i = .lit v))

/-- 42_output_engine.md R78, 70_reset_and_hazards.md R96: what stands in the input at and behind the `ip` a step ends with has
no influence on the step: with any other input that agrees below it, the step is the same. -/
def Obligations.InputBehindIpIsNeverRead : Prop :=
  ∀ (s t : State) (m : Memory) (n : Nat),
    step s = .next t → (t.status = .error → t.cause ≠ .truncation) → t.src.ip ≤ n →
    (∀ a, a < t.src.ip → m.read a = s.src.inp.read a) →
    step (withInput m n s) = .next (withInput m n t)

/-- 42_output_engine.md R82: after START every job leaves BUSY within 65536 steps, and `ip` never passes 286722, whatever the free
`ip` after Truncation is (notes/assumptions/6.md). -/
def Obligations.EveryJobEnds : Prop :=
  ∀ (bytes : List Byte) (s s0 : State), hostStart bytes s = .next s0 →
    (∃ t, runJob 65536 s0 = .next t ∧ t.ended) ∧
    (∀ (k : Nat) (t : State), runJob k s0 = .next t → t.src.ip ≤ 286722)

/-- 42_output_engine.md R83: a job is a function of its input bytes alone: from any two states that are not BUSY, the same
input gives, after the same number of steps, the same STATUS, the same result and the same `ip`. That this holds of `ip` after
Truncation too rests on the form the model gives that free value (notes/assumptions/6.md). -/
def Obligations.JobsDependOnTheirInputAlone : Prop :=
  ∀ (bytes : List Byte) (s1 s2 : State), s1.status ≠ .busy → s2.status ≠ .busy →
    ∃ t1 t2, hostStart bytes s1 = .next t1 ∧ hostStart bytes s2 = .next t2 ∧
      ∀ (k : Nat) (u1 : State), runJob k t1 = .next u1 →
        ∃ u2, runJob k t2 = .next u2 ∧ u1.status = u2.status ∧ jobResult u1 = jobResult u2 ∧ u1.src.ip = u2.src.ip
end

