-- ==== Sys2Proof/Laws/Memory.lean ====
section
/-! SUPPORT. The laws of a byte space: read after write, the canonical form, and spaces that hold a value at exactly the
addresses below a length. -/

namespace Sys2Proof.Machine

@[simp] theorem Memory.read_nil (a : Nat) : Memory.read [] a = none := rfl

@[simp] theorem Memory.read_cons (k : Nat) (x : Byte) (rest : Memory) (a : Nat) :
    Memory.read ((k, x) :: rest) a = if a = k then some x else Memory.read rest a := rfl

/-- A read of the address just written gives the value written. -/
@[simp] theorem Memory.read_write_same (m : Memory) (a : Nat) (v : Byte) : (m.write a v).read a = some v := by
  induction m with
  | nil => simp [Memory.write]
  | cons c rest ih =>
    obtain ⟨k, x⟩ := c
    simp only [Memory.write]
    split
    · simp
    · split
      · simp
      · rename_i h; simp [h, ih]

/-- A write leaves every other address alone. -/
theorem Memory.read_write_of_ne (m : Memory) (a b : Nat) (v : Byte) (h : b ≠ a) : (m.write a v).read b = m.read b := by
  induction m with
  | nil => simp [Memory.write, h]
  | cons c rest ih =>
    obtain ⟨k, x⟩ := c
    simp only [Memory.write]
    split
    · simp [h]
    · split
      · rename_i hk; subst hk; simp [h]
      · simp [ih]

theorem Memory.read_write (m : Memory) (a b : Nat) (v : Byte) :
    (m.write a v).read b = if b = a then some v else m.read b := by
  split
  · rename_i h; subst h; simp
  · rename_i h; exact m.read_write_of_ne a b v h

theorem Memory.risingFrom_mono {lo lo' : Nat} (h : lo' ≤ lo) :
    ∀ m : Memory, Memory.risingFrom lo m = true → Memory.risingFrom lo' m = true
  | [], _ => rfl
  | (k, x) :: rest, hm => by
    simp only [Memory.risingFrom, Bool.and_eq_true, decide_eq_true_eq] at hm ⊢
    exact ⟨by omega, hm.2⟩

theorem Memory.risingFrom_write (lo a : Nat) (v : Byte) (m : Memory) (hm : Memory.risingFrom lo m = true) (ha : lo ≤ a) :
    Memory.risingFrom lo (m.write a v) = true := by
  induction m generalizing lo with
  | nil => simp [Memory.write, Memory.risingFrom, ha]
  | cons c rest ih =>
    obtain ⟨k, x⟩ := c
    simp only [Memory.risingFrom, Bool.and_eq_true, decide_eq_true_eq] at hm
    simp only [Memory.write]
    split
    · rename_i hk
      simp only [Memory.risingFrom, Bool.and_eq_true, decide_eq_true_eq]
      exact ⟨ha, by omega, hm.2⟩
    · split
      · rename_i hk; subst hk
        simp only [Memory.risingFrom, Bool.and_eq_true, decide_eq_true_eq]
        exact ⟨ha, hm.2⟩
      · simp only [Memory.risingFrom, Bool.and_eq_true, decide_eq_true_eq]
        exact ⟨hm.1, ih (k + 1) hm.2 (by omega)⟩

/-- Every write keeps the canonical form. -/
theorem Memory.wf_write (m : Memory) (a : Nat) (v : Byte) (hm : m.wf = true) : (m.write a v).wf = true :=
  Memory.risingFrom_write 0 a v m hm (Nat.zero_le a)

theorem Memory.coversFrom_nil {lo n : Nat} : Memory.coversFrom lo n [] = true ↔ n = 0 := by
  cases n <;> simp [Memory.coversFrom]

theorem Memory.coversFrom_cons {lo n k : Nat} {x : Byte} {rest : Memory} :
    Memory.coversFrom lo n ((k, x) :: rest) = true ↔
      ∃ m, n = m + 1 ∧ k = lo ∧ Memory.coversFrom (lo + 1) m rest = true := by
  cases n <;> simp [Memory.coversFrom]

theorem Memory.risingFrom_of_coversFrom {lo n : Nat} {m : Memory} (h : Memory.coversFrom lo n m = true) :
    Memory.risingFrom lo m = true := by
  induction m generalizing lo n with
  | nil => rfl
  | cons c rest ih =>
    obtain ⟨k, x⟩ := c
    obtain ⟨p, rfl, rfl, hr⟩ := Memory.coversFrom_cons.1 h
    simp [Memory.risingFrom, ih hr]

/-- A space that is whole up to a length is in canonical form. -/
theorem Memory.wf_of_covers {n : Nat} {m : Memory} (h : m.covers n = true) : m.wf = true :=
  Memory.risingFrom_of_coversFrom h

theorem Memory.isSome_read_of_coversFrom {lo n : Nat} {m : Memory} (h : Memory.coversFrom lo n m = true) (a : Nat) :
    (m.read a).isSome = decide (lo ≤ a ∧ a < lo + n) := by
  induction m generalizing lo n with
  | nil => rw [Memory.coversFrom_nil] at h; subst h; simp
  | cons c rest ih =>
    obtain ⟨k, x⟩ := c
    obtain ⟨p, rfl, rfl, hr⟩ := Memory.coversFrom_cons.1 h
    rw [Memory.read_cons]
    split
    · rename_i hk; subst hk; simp
    · rename_i hk
      rw [ih hr]
      simp only [decide_eq_decide]
      omega

/-- In a space that is whole up to `n`, exactly the addresses below `n` hold a value. -/
theorem Memory.isSome_read_of_covers {n : Nat} {m : Memory} (h : m.covers n = true) (a : Nat) :
    (m.read a).isSome = decide (a < n) := by
  rw [Memory.isSome_read_of_coversFrom h]; simp

theorem Memory.exists_read_of_covers {n a : Nat} {m : Memory} (h : m.covers n = true) (ha : a < n) :
    ∃ v, m.read a = some v := by
  rw [← Option.isSome_iff_exists, Memory.isSome_read_of_covers h]; simpa using ha

theorem Memory.coversFrom_write {lo n : Nat} {m : Memory} (h : Memory.coversFrom lo n m = true) (v : Byte) :
    Memory.coversFrom lo (n + 1) (m.write (lo + n) v) = true := by
  induction m generalizing lo n with
  | nil => rw [Memory.coversFrom_nil] at h; subst h; simp [Memory.write, Memory.coversFrom]
  | cons c rest ih =>
    obtain ⟨k, x⟩ := c
    obtain ⟨p, rfl, rfl, hr⟩ := Memory.coversFrom_cons.1 h
    have h2 := ih hr
    simp only [Memory.write]
    rw [if_neg (by omega), if_neg (by omega), Memory.coversFrom_cons]
    refine ⟨p + 1, rfl, rfl, ?_⟩
    rw [show k + (p + 1) = k + 1 + p by omega]
    exact h2

/-- A write at the first free address makes a whole space longer by one. -/
theorem Memory.covers_write {n : Nat} {m : Memory} (h : m.covers n = true) (v : Byte) :
    (m.write n v).covers (n + 1) = true := by
  simpa [Memory.covers] using Memory.coversFrom_write (lo := 0) h v

theorem Memory.coversFrom_ofBytesFrom (lo : Nat) (bs : List Byte) :
    Memory.coversFrom lo bs.length (Memory.ofBytesFrom lo bs) = true := by
  induction bs generalizing lo with
  | nil => rfl
  | cons b bs ih => simp [Memory.ofBytesFrom, Memory.coversFrom, ih]

/-- The space of a byte sequence is whole up to its length. -/
theorem Memory.covers_ofBytes (bs : List Byte) : (Memory.ofBytes bs).covers bs.length = true :=
  Memory.coversFrom_ofBytesFrom 0 bs

theorem Memory.wf_ofBytes (bs : List Byte) : (Memory.ofBytes bs).wf = true := Memory.wf_of_covers (Memory.covers_ofBytes bs)

theorem Memory.read_ofBytesFrom (lo : Nat) (bs : List Byte) (a : Nat) (h : lo ≤ a) :
    (Memory.ofBytesFrom lo bs).read a = bs[a - lo]? := by
  induction bs generalizing lo with
  | nil => simp [Memory.ofBytesFrom]
  | cons b bs ih =>
    rw [Memory.ofBytesFrom, Memory.read_cons]
    split
    · rename_i hk; subst hk; simp
    · rename_i hk
      rw [ih (lo + 1) (by omega), show a - lo = (a - (lo + 1)) + 1 by omega, List.getElem?_cons_succ]

/-- The space of a byte sequence holds at each address the byte of that position. -/
@[simp] theorem Memory.read_ofBytes (bs : List Byte) (a : Nat) : (Memory.ofBytes bs).read a = bs[a]? := by
  simpa [Memory.ofBytes] using Memory.read_ofBytesFrom 0 bs a (Nat.zero_le a)

theorem Memory.length_of_coversFrom {lo n : Nat} {m : Memory} (h : Memory.coversFrom lo n m = true) : m.length = n := by
  induction m generalizing lo n with
  | nil => rw [Memory.coversFrom_nil] at h; simp [h]
  | cons c rest ih =>
    obtain ⟨k, x⟩ := c
    obtain ⟨p, rfl, rfl, hr⟩ := Memory.coversFrom_cons.1 h
    simp [ih hr]

/-- A whole space holds as many bytes as its length says. -/
theorem Memory.length_bytes_of_covers {n : Nat} {m : Memory} (h : m.covers n = true) : m.bytes.length = n := by
  simpa [Memory.bytes] using Memory.length_of_coversFrom h

end Sys2Proof.Machine
end

