-- ==== Sys2Proof/Laws/Decode.lean ====
section
/-! SUPPORT. What the Command Bit Source can answer, once per operation, and how a tree is walked. -/

namespace Sys2Proof

open Sys2Proof.Machine (Memory)

@[simp] theorem ReadResult.bind_ok {α β : Type} (v : α) (c : Source) (f : α → Source → ReadResult β) :
    (ReadResult.ok v c).bind f = f v c := rfl

@[simp] theorem ReadResult.bind_truncated {α β : Type} (c : Source) (f : α → Source → ReadResult β) :
    (ReadResult.truncated c).bind f = .truncated c := rfl

@[simp] theorem ReadResult.bind_absent {α β : Type} (a : Nat) (f : α → Source → ReadResult β) :
    (ReadResult.absent a).bind f = .absent a := rfl

@[simp] theorem ReadResult.bind_noBits {α β : Type} (f : α → Source → ReadResult β) :
    (ReadResult.noBits).bind f = .noBits := rfl

/-- A chain of reads that answers a value got one from its first read. -/
theorem ReadResult.bind_eq_ok {α β : Type} {r : ReadResult α} {f : α → Source → ReadResult β} {w : β} {c' : Source} :
    r.bind f = .ok w c' ↔ ∃ v c, r = .ok v c ∧ f v c = .ok w c' := by
  cases r <;> simp

/-- A chain of reads that is truncated is so in its first read or after it. -/
theorem ReadResult.bind_eq_truncated {α β : Type} {r : ReadResult α} {f : α → Source → ReadResult β} {c' : Source} :
    r.bind f = .truncated c' ↔ r = .truncated c' ∨ ∃ v c, r = .ok v c ∧ f v c = .truncated c' := by
  cases r <;> simp

@[simp] theorem Reader.run_done {α : Type} (v : α) (c : Source) : (Reader.done v).run c = .ok v c := rfl

@[simp] theorem Reader.run_bit {α : Type} (k : Bool → Reader α) (c : Source) :
    (Reader.bit k).run c = (nextBit c).bind fun b c' => (k b).run c' := rfl

@[simp] theorem Reader.run_byte {α : Type} (k : Byte → Reader α) (c : Source) :
    (Reader.byte k).run c = (inByte c).bind fun v c' => (k v).run c' := rfl

@[simp] theorem Reader.runItems_done {α : Type} (v : α) (its : List Item) : (Reader.done v).runItems its = some (v, its) := by
  cases its <;> rfl

@[simp] theorem Reader.runItems_bit {α : Type} (k : Bool → Reader α) (b : Bool) (its : List Item) :
    (Reader.bit k).runItems (.bit b :: its) = (k b).runItems its := rfl

@[simp] theorem Reader.runItems_byte {α : Type} (k : Byte → Reader α) (v : Byte) (its : List Item) :
    (Reader.byte k).runItems (.byte v :: its) = (k v).runItems its := rfl

/-- All that InByte does when it answers a byte. -/
theorem inByte_eq_ok {c c' : Source} {v : Byte} :
    inByte c = .ok v c' ↔ c.ip + 1 ≤ c.inLen ∧ c.inp.read c.ip = some v ∧ c' = { c with ip := c.ip + 1 } := by
  unfold inByte
  split
  · simp; omega
  · rename_i h
    split <;> rename_i hr
    · simp [hr]
    · simp only [ReadResult.ok.injEq, hr, Option.some.injEq]
      constructor
      · rintro ⟨rfl, rfl⟩; exact ⟨by omega, rfl, rfl⟩
      · rintro ⟨-, rfl, rfl⟩; exact ⟨rfl, rfl⟩

/-- InByte is truncated exactly when no byte is left, and then consumes nothing. -/
theorem inByte_eq_truncated {c c' : Source} : inByte c = .truncated c' ↔ c.inLen < c.ip + 1 ∧ c' = c := by
  unfold inByte
  split
  · rename_i h; simp [h, eq_comm]
  · rename_i h
    split <;> simp [h]

/-- All that LOADCW does when it succeeds. -/
theorem loadCw_eq_ok {c c' : Source} {u : Unit} :
    loadCw c = .ok u c' ↔ c.ip + 2 ≤ c.inLen ∧ ∃ lo hi, c.inp.read c.ip = some lo ∧ c.inp.read (c.ip + 1) = some hi ∧
      c' = { c with ip := c.ip + 2, cw := pair hi lo, cnt := Config.cwWidth } := by
  unfold loadCw
  split
  · simp; omega
  · rename_i h
    have h' : c.ip + 2 ≤ c.inLen := by omega
    cases h0 : c.inp.read c.ip with
    | none => simp
    | some lo =>
      cases h1 : c.inp.read (c.ip + 1) with
      | none => simp
      | some hi => simp [h', eq_comm]

/-- LOADCW is truncated exactly when fewer than two bytes are left, and then writes nothing. -/
theorem loadCw_eq_truncated {c c' : Source} : loadCw c = .truncated c' ↔ c.inLen < c.ip + 2 ∧ c' = c := by
  unfold loadCw
  split
  · rename_i h; simp [h, eq_comm]
  · rename_i h
    split <;> simp [h]

/-- All that NEXTBIT does when it answers a bit: it takes the lowest bit, and refills exactly when that was the last one. -/
theorem nextBit_eq_ok {c c' : Source} {b : Bool} :
    nextBit c = .ok b c' ↔ c.cnt ≠ 0 ∧ b = c.cw.getLsbD 0 ∧
      ((c.cnt ≠ 1 ∧ c' = afterShift c) ∨ (c.cnt = 1 ∧ loadCw (afterShift c) = .ok () c')) := by
  unfold nextBit
  by_cases h0 : c.cnt = 0
  · simp [h0]
  · by_cases h1 : c.cnt = 1
    · have : (afterShift c).cnt = 0 := by simp [afterShift, h1]
      rw [if_neg h0, if_pos this, ReadResult.bind_eq_ok]
      constructor
      · rintro ⟨u, d, hd, he⟩
        cases he; exact ⟨h0, rfl, .inr ⟨h1, hd⟩⟩
      · rintro ⟨-, rfl, ⟨h, -⟩ | ⟨-, hd⟩⟩
        · exact absurd h1 h
        · exact ⟨(), c', hd, rfl⟩
    · have : (afterShift c).cnt ≠ 0 := by simp [afterShift]; omega
      rw [if_neg h0, if_neg this]
      constructor
      · intro h; cases h; exact ⟨h0, rfl, .inl ⟨h1, rfl⟩⟩
      · rintro ⟨-, rfl, ⟨-, rfl⟩ | ⟨h, -⟩⟩
        · rfl
        · exact absurd h h1

/-- NEXTBIT is truncated exactly when the refill it must run is. -/
theorem nextBit_eq_truncated {c c' : Source} :
    nextBit c = .truncated c' ↔ c.cnt = 1 ∧ loadCw (afterShift c) = .truncated c' := by
  unfold nextBit
  by_cases h0 : c.cnt = 0
  · simp [h0]
  · by_cases h1 : c.cnt = 1
    · have : (afterShift c).cnt = 0 := by simp [afterShift, h1]
      rw [if_neg h0, if_pos this, ReadResult.bind_eq_truncated]
      simp [h1]
    · have : (afterShift c).cnt ≠ 0 := by simp [afterShift]; omega
      rw [if_neg h0, if_neg this]
      simp [h1]

end Sys2Proof
end

