-- ==== Sys2Proof/Laws/State.lean ====
section
/-! SUPPORT. One lemma per field per update of the state, so that no proof unfolds a record update. -/

namespace Sys2Proof.Machine

@[simp] theorem withSource_src (s : State) (c : Source) : (s.withSource c).src = c := rfl
@[simp] theorem withSource_out (s : State) (c : Source) : (s.withSource c).out = s.out := rfl
@[simp] theorem withSource_olen (s : State) (c : Source) : (s.withSource c).olen = s.olen := rfl
@[simp] theorem withSource_status (s : State) (c : Source) : (s.withSource c).status = s.status := rfl
@[simp] theorem withSource_cause (s : State) (c : Source) : (s.withSource c).cause = s.cause := rfl
@[simp] theorem withSource_errOffset (s : State) (c : Source) : (s.withSource c).errOffset = s.errOffset := rfl
@[simp] theorem withSource_errStart (s : State) (c : Source) : (s.withSource c).errStart = s.errStart := rfl
@[simp] theorem withSource_temps (s : State) (c : Source) : (s.withSource c).temps = s.temps := rfl

@[simp] theorem endStep_src (s : State) : (endStep s).src = s.src := rfl
@[simp] theorem endStep_out (s : State) : (endStep s).out = s.out := rfl
@[simp] theorem endStep_olen (s : State) : (endStep s).olen = s.olen := rfl
@[simp] theorem endStep_status (s : State) : (endStep s).status = s.status := rfl
@[simp] theorem endStep_cause (s : State) : (endStep s).cause = s.cause := rfl
@[simp] theorem endStep_errOffset (s : State) : (endStep s).errOffset = s.errOffset := rfl
@[simp] theorem endStep_errStart (s : State) : (endStep s).errStart = s.errStart := rfl
@[simp] theorem endStep_temps (s : State) : (endStep s).temps = Temps.clear := rfl

@[simp] theorem outAppend_src (v : Byte) (s : State) : (outAppend v s).src = s.src := rfl
@[simp] theorem outAppend_out (v : Byte) (s : State) : (outAppend v s).out = s.out.write s.olen v := rfl
@[simp] theorem outAppend_olen (v : Byte) (s : State) : (outAppend v s).olen = s.olen + 1 := rfl
@[simp] theorem outAppend_status (v : Byte) (s : State) : (outAppend v s).status = s.status := rfl
@[simp] theorem outAppend_cause (v : Byte) (s : State) : (outAppend v s).cause = s.cause := rfl
@[simp] theorem outAppend_errOffset (v : Byte) (s : State) : (outAppend v s).errOffset = s.errOffset := rfl
@[simp] theorem outAppend_errStart (v : Byte) (s : State) : (outAppend v s).errStart = s.errStart := rfl
@[simp] theorem outAppend_temps (v : Byte) (s : State) : (outAppend v s).temps = s.temps := rfl

@[simp] theorem raiseTruncation_src (s : State) : (raiseError .truncation s).src = s.src := rfl
@[simp] theorem raiseTruncation_out (s : State) : (raiseError .truncation s).out = s.out := rfl
@[simp] theorem raiseTruncation_olen (s : State) : (raiseError .truncation s).olen = s.olen := rfl
@[simp] theorem raiseTruncation_status (s : State) : (raiseError .truncation s).status = .error := rfl
@[simp] theorem raiseTruncation_cause (s : State) : (raiseError .truncation s).cause = .truncation := rfl
@[simp] theorem raiseTruncation_errOffset (s : State) : (raiseError .truncation s).errOffset = s.errOffset := rfl
@[simp] theorem raiseTruncation_errStart (s : State) : (raiseError .truncation s).errStart = s.errStart := rfl
@[simp] theorem raiseTruncation_temps (s : State) : (raiseError .truncation s).temps = s.temps := rfl

@[simp] theorem raiseOverflow_src (s : State) : (raiseError .outputSizeOverflow s).src = s.src := rfl
@[simp] theorem raiseOverflow_out (s : State) : (raiseError .outputSizeOverflow s).out = s.out := rfl
@[simp] theorem raiseOverflow_olen (s : State) : (raiseError .outputSizeOverflow s).olen = s.olen := rfl
@[simp] theorem raiseOverflow_status (s : State) : (raiseError .outputSizeOverflow s).status = .error := rfl
@[simp] theorem raiseOverflow_cause (s : State) : (raiseError .outputSizeOverflow s).cause = .outputSizeOverflow := rfl
@[simp] theorem raiseOverflow_errOffset (s : State) : (raiseError .outputSizeOverflow s).errOffset = s.errOffset := rfl
@[simp] theorem raiseOverflow_errStart (s : State) : (raiseError .outputSizeOverflow s).errStart = s.errStart := rfl
@[simp] theorem raiseOverflow_temps (s : State) : (raiseError .outputSizeOverflow s).temps = s.temps := rfl

@[simp] theorem raiseInvalidAddress_src (o st : Half) (s : State) : (raiseError (.invalidAddress o st) s).src = s.src := rfl
@[simp] theorem raiseInvalidAddress_out (o st : Half) (s : State) : (raiseError (.invalidAddress o st) s).out = s.out := rfl
@[simp] theorem raiseInvalidAddress_olen (o st : Half) (s : State) : (raiseError (.invalidAddress o st) s).olen = s.olen := rfl
@[simp] theorem raiseInvalidAddress_status (o st : Half) (s : State) : (raiseError (.invalidAddress o st) s).status = .error := rfl
@[simp] theorem raiseInvalidAddress_cause (o st : Half) (s : State) : (raiseError (.invalidAddress o st) s).cause = .invalidAddress := rfl
@[simp] theorem raiseInvalidAddress_errOffset (o st : Half) (s : State) : (raiseError (.invalidAddress o st) s).errOffset = o := rfl
@[simp] theorem raiseInvalidAddress_errStart (o st : Half) (s : State) : (raiseError (.invalidAddress o st) s).errStart = st := rfl
@[simp] theorem raiseInvalidAddress_temps (o st : Half) (s : State) : (raiseError (.invalidAddress o st) s).temps = s.temps := rfl

@[simp] theorem takeTruncation_src (c : Source) (s : State) : (takeTruncation c s).src = { c with ip := truncatedIp c } := rfl
@[simp] theorem takeTruncation_out (c : Source) (s : State) : (takeTruncation c s).out = s.out := rfl
@[simp] theorem takeTruncation_olen (c : Source) (s : State) : (takeTruncation c s).olen = s.olen := rfl
@[simp] theorem takeTruncation_status (c : Source) (s : State) : (takeTruncation c s).status = .error := rfl
@[simp] theorem takeTruncation_cause (c : Source) (s : State) : (takeTruncation c s).cause = .truncation := rfl
@[simp] theorem takeTruncation_errOffset (c : Source) (s : State) : (takeTruncation c s).errOffset = s.errOffset := rfl
@[simp] theorem takeTruncation_errStart (c : Source) (s : State) : (takeTruncation c s).errStart = s.errStart := rfl
@[simp] theorem takeTruncation_temps (c : Source) (s : State) : (takeTruncation c s).temps = Temps.clear := rfl

@[simp] theorem openReference_src (l : Byte) (s : State) : (openReference l s).src = s.src := rfl
@[simp] theorem openReference_out (l : Byte) (s : State) : (openReference l s).out = s.out := rfl
@[simp] theorem openReference_olen (l : Byte) (s : State) : (openReference l s).olen = s.olen := rfl
@[simp] theorem openReference_status (l : Byte) (s : State) : (openReference l s).status = s.status := rfl
@[simp] theorem openReference_cause (l : Byte) (s : State) : (openReference l s).cause = s.cause := rfl
@[simp] theorem openReference_errOffset (l : Byte) (s : State) : (openReference l s).errOffset = s.errOffset := rfl
@[simp] theorem openReference_errStart (l : Byte) (s : State) : (openReference l s).errStart = s.errStart := rfl
@[simp] theorem openReference_temps (l : Byte) (s : State) : (openReference l s).temps = { Temps.clear with stage := .offh, offsetL := l } := rfl

@[simp] theorem applyOffh_src (o : OffhCode) (s : State) : (applyOffh o s).src = s.src := rfl
@[simp] theorem applyOffh_out (o : OffhCode) (s : State) : (applyOffh o s).out = s.out := rfl
@[simp] theorem applyOffh_olen (o : OffhCode) (s : State) : (applyOffh o s).olen = s.olen := rfl
@[simp] theorem applyOffh_status (o : OffhCode) (s : State) : (applyOffh o s).status = s.status := rfl
@[simp] theorem applyOffh_cause (o : OffhCode) (s : State) : (applyOffh o s).cause = s.cause := rfl
@[simp] theorem applyOffh_errOffset (o : OffhCode) (s : State) : (applyOffh o s).errOffset = s.errOffset := rfl
@[simp] theorem applyOffh_errStart (o : OffhCode) (s : State) : (applyOffh o s).errStart = s.errStart := rfl
@[simp] theorem applyOffh_temps (o : OffhCode) (s : State) : (applyOffh o s).temps = { s.temps with offsetH := offhHigh o, stage := .len } := rfl

@[simp] theorem applyLen_src (n : LenCode) (s : State) : (applyLen n s).src = s.src := rfl
@[simp] theorem applyLen_out (n : LenCode) (s : State) : (applyLen n s).out = s.out := rfl
@[simp] theorem applyLen_olen (n : LenCode) (s : State) : (applyLen n s).olen = s.olen := rfl
@[simp] theorem applyLen_status (n : LenCode) (s : State) : (applyLen n s).status = s.status := rfl
@[simp] theorem applyLen_cause (n : LenCode) (s : State) : (applyLen n s).cause = s.cause := rfl
@[simp] theorem applyLen_errOffset (n : LenCode) (s : State) : (applyLen n s).errOffset = s.errOffset := rfl
@[simp] theorem applyLen_errStart (n : LenCode) (s : State) : (applyLen n s).errStart = s.errStart := rfl
@[simp] theorem applyLen_temps (n : LenCode) (s : State) : (applyLen n s).temps = { s.temps with length := lenValue n, stage := .resolve } := rfl

@[simp] theorem beginJob_src (bytes : List Byte) (s : State) : (beginJob bytes s).src = { s.src with inp := Memory.ofBytes bytes, inLen := bytes.length, ip := 0 } := rfl
@[simp] theorem beginJob_out (bytes : List Byte) (s : State) : (beginJob bytes s).out = [] := rfl
@[simp] theorem beginJob_olen (bytes : List Byte) (s : State) : (beginJob bytes s).olen = 0 := rfl
@[simp] theorem beginJob_status (bytes : List Byte) (s : State) : (beginJob bytes s).status = .busy := rfl
@[simp] theorem beginJob_cause (bytes : List Byte) (s : State) : (beginJob bytes s).cause = .none := rfl
@[simp] theorem beginJob_errOffset (bytes : List Byte) (s : State) : (beginJob bytes s).errOffset = 0 := rfl
@[simp] theorem beginJob_errStart (bytes : List Byte) (s : State) : (beginJob bytes s).errStart = 0 := rfl
@[simp] theorem beginJob_temps (bytes : List Byte) (s : State) : (beginJob bytes s).temps = Temps.clear := rfl

end Sys2Proof.Machine
end

