-- ==== Sys2Proof/Laws/Ops.lean ====
section
/-! SUPPORT. What each shared operation can do, once. -/

namespace Sys2Proof.Machine

open Host (Outcome)

/-- Error entry leaves the source, the output and the temporaries alone, and always ends in ERROR (60_exceptions.md R87). -/
theorem raiseError_frame (e : Raise) (s : State) :
    (raiseError e s).src = s.src ∧ (raiseError e s).out = s.out ∧ (raiseError e s).olen = s.olen ∧
      (raiseError e s).temps = s.temps ∧ (raiseError e s).status = .error ∧ (raiseError e s).cause = e.cause := by
  cases e <;> exact ⟨rfl, rfl, rfl, rfl, rfl, rfl⟩

/-- `ip` after Truncation lies between the failing read and the end of the input. -/
theorem truncatedIp_bounds (c : Source) : c.ip ≤ truncatedIp c ∧ (c.ip ≤ c.inLen → truncatedIp c ≤ c.inLen) := by
  unfold truncatedIp; omega

/-- The size check changes the state only by the error it may raise (42_output_engine.md R79). -/
theorem sizeCheck_cases (s : State) :
    (s.olen ≤ Config.sizeLimit ∧ sizeCheck s = s) ∨
      (Config.sizeLimit < s.olen ∧ sizeCheck s = raiseError .outputSizeOverflow s) := by
  unfold sizeCheck sizeExceeded
  by_cases h : Config.sizeLimit < s.olen
  · right; exact ⟨h, by simp [h]⟩
  · left; exact ⟨by omega, by simp [h]⟩

theorem outRead_eq_some {s : State} {i : Nat} {v : Byte} :
    outRead s i = some v ↔ i < s.olen ∧ s.out.read i = some v := by
  unfold outRead; split <;> simp_all

@[simp] theorem copy_zero (i : Nat) (s : State) : copy 0 i s = .next s := rfl

theorem copy_succ (n i : Nat) (s : State) {v : Byte} (h : outRead s i = some v) :
    copy (n + 1) i s = copy n (i + 1) (outAppend v s) := by
  simp [copy, h]

/-- A copy touches nothing but the output. -/
theorem copy_frame {n i : Nat} {s t : State} (h : copy n i s = .next t) :
    t.src = s.src ∧ t.status = s.status ∧ t.cause = s.cause ∧ t.errOffset = s.errOffset ∧ t.errStart = s.errStart ∧
      t.temps = s.temps ∧ t.olen = s.olen + n ∧ (∀ a, a < s.olen ∨ s.olen + n ≤ a → t.out.read a = s.out.read a) := by
  induction n generalizing i s with
  | zero => simp at h; subst h; simp
  | succ n ih =>
    simp only [copy] at h
    split at h
    · simp at h
    · rename_i v hv
      obtain ⟨h1, h2, h3, h4, h5, h6, h7, h8⟩ := ih h
      simp only [outAppend_src, outAppend_status, outAppend_cause, outAppend_errOffset, outAppend_errStart,
        outAppend_temps, outAppend_olen, outAppend_out] at *
      refine ⟨h1, h2, h3, h4, h5, h6, by omega, fun a ha => ?_⟩
      rw [h8 a (by omega), Memory.read_write_of_ne _ _ _ _ (by omega)]

/-- In a whole output buffer a copy that begins below `olen` always completes, and the buffer stays whole. -/
theorem copy_completes (n i : Nat) (s : State) (hw : s.out.covers s.olen = true) (hi : i < s.olen) :
    ∃ t, copy n i s = .next t ∧ t.out.covers t.olen = true := by
  induction n generalizing i s with
  | zero => exact ⟨s, rfl, hw⟩
  | succ n ih =>
    obtain ⟨v, hv⟩ := Memory.exists_read_of_covers hw hi
    obtain ⟨t, ht, hc⟩ := ih (i + 1) (outAppend v s) (by simpa using Memory.covers_write hw v) (by simp; omega)
    exact ⟨t, by rw [copy_succ n i s (outRead_eq_some.2 ⟨hi, hv⟩), ht], hc⟩

/-- Byte `j` of a copy is what stands at `i + j` when the copy has ended: each byte is read after those before it have
been appended (42_output_engine.md R77). -/
theorem copy_bytes {n i : Nat} {s t : State} (h : copy n i s = .next t) (hi : i < s.olen) (j : Nat) (hj : j < n) :
    t.out.read (s.olen + j) = t.out.read (i + j) := by
  induction n generalizing i s j with
  | zero => omega
  | succ n ih =>
    simp only [copy] at h
    split at h
    · simp at h
    · rename_i v hv
      obtain ⟨-, hv⟩ := outRead_eq_some.1 hv
      cases j with
      | zero =>
        have hf := (copy_frame h).2.2.2.2.2.2.2
        simp only [outAppend_olen, outAppend_out] at hf
        simp only [Nat.add_zero]
        rw [hf s.olen (by omega), hf i (by omega), Memory.read_write_same, Memory.read_write_of_ne _ _ _ _ (by omega), hv]
      | succ j =>
        have := ih h (by simp; omega) j (by omega)
        simp only [outAppend_olen] at this
        rw [show s.olen + (j + 1) = s.olen + 1 + j by omega, this]
        congr 1; omega

/-- A reference whose start is out of range raises InvalidAddress and changes no output (42_output_engine.md R76). -/
theorem execBackReference_invalid {offset length : Half} {s : State} (h : s.olen ≤ (startIndex s.olen offset).toNat) :
    execBackReference offset length s =
      .next (endStep (raiseError (.invalidAddress offset (startIndex s.olen offset)) s)) := by
  simp [execBackReference, startInvalid, h]

/-- A reference whose start is in range is a copy and then the size check (42_output_engine.md R77, R79). -/
theorem execBackReference_valid {offset length : Half} {s t : State} (h : (startIndex s.olen offset).toNat < s.olen)
    (hc : copy length.toNat (startIndex s.olen offset).toNat s = .next t) :
    execBackReference offset length s = .next (endStep (sizeCheck t)) := by
  have : ¬ s.olen ≤ (startIndex s.olen offset).toNat := by omega
  simp [execBackReference, startInvalid, this, hc]

/-- All that a back-reference can do when it answers a next state. -/
theorem execBackReference_cases {offset length : Half} {s t : State} (h : execBackReference offset length s = .next t) :
    (s.olen ≤ (startIndex s.olen offset).toNat ∧
        t = endStep (raiseError (.invalidAddress offset (startIndex s.olen offset)) s)) ∨
      ((startIndex s.olen offset).toNat < s.olen ∧
        ∃ u, copy length.toNat (startIndex s.olen offset).toNat s = .next u ∧ t = endStep (sizeCheck u)) := by
  by_cases hs : s.olen ≤ (startIndex s.olen offset).toNat
  · rw [execBackReference_invalid hs] at h
    exact .inl ⟨hs, by simpa using h.symm⟩
  · refine .inr ⟨by omega, ?_⟩
    simp only [execBackReference, startInvalid, hs, decide_false, Bool.false_eq_true, if_false] at h
    split at h <;> simp at h
    rename_i u hu
    exact ⟨u, hu, h.symm⟩

end Sys2Proof.Machine
end

