-- ==== Sys2Proof/Laws/PerInstr.lean ====
section
/-! SUPPORT. Facts stated per instruction, one lemma per constructor. -/

namespace Sys2Proof.Laws.ItemRoundTrip

/-- The tree of an instruction's stage reads its encoding, whatever items follow, and stops right behind it
(30_encoding.md R46, R53, R54). -/
def Statement (i : Instr) : Prop :=
  i.wf = true → ∀ rest, ∃ t, treeAt i.stage = some t ∧ t.runItems (encode i ++ rest) = some (i, rest)

/-- A 3-bit field read back, most significant bit first. -/
theorem field3 {α : Type} (h : BitVec 3) (k : Nat → Reader α) (rest : List Item) :
    (Reader.field 3 0 k).runItems (fieldItems h 3 ++ rest) = (k h.toNat).runItems rest := by
  have : ∀ h : BitVec 3,
      2 * (2 * (2 * 0 + bitNat (h.getLsbD 2)) + bitNat (h.getLsbD 1)) + bitNat (h.getLsbD 0) = h.toNat := by decide
  simp only [Reader.field, fieldItems, List.cons_append, List.nil_append, Reader.runItems_bit, this]

/-- An offset-high sub-code read back. -/
theorem offh {α : Type} (o : OffhCode) (k : OffhCode → Reader α) (rest : List Item) :
    (readOffh k).runItems (encodeOffh o ++ rest) = (k o).runItems rest := by
  cases o <;> simp [readOffh, encodeOffh]

/-- A length sub-code read back. -/
theorem len {α : Type} (n : LenCode) (k : LenCode → Reader α) (rest : List Item) :
    (readLen k).runItems (encodeLen n ++ rest) = (k n).runItems rest := by
  cases n <;> simp [readLen, encodeLen, zeros, List.replicate, field3]

theorem lit (v : Byte) : Statement (.lit v) := fun _ rest => ⟨readToken, rfl, by simp [readToken, encode]⟩
theorem eof : Statement .eof := fun _ rest => ⟨readToken, rfl, by simp [readToken, encode]⟩
theorem sref (l : Byte) : Statement (.sref l) := fun h rest =>
  ⟨readToken, rfl, by
    have hl : ¬ l = 255#8 := by simpa [Instr.wf] using h
    simp [readToken, encode, hl]⟩
theorem mref (l : Byte) (h : BitVec 3) : Statement (.mref l h) := fun _ rest =>
  ⟨readToken, rfl, by simp [readToken, encode, field3]⟩
theorem bref (l : Byte) (o : OffhCode) (n : LenCode) : Statement (.bref l o n) := fun _ rest =>
  ⟨readToken, rfl, by simp [readToken, encode, offh, len]⟩
theorem oh2 (a : Bool) : Statement (.oh2 a) := fun _ rest => ⟨_, rfl, by simp [encode, offh, Instr.ofOffh]⟩
theorem oh3 (a : Bool) : Statement (.oh3 a) := fun _ rest => ⟨_, rfl, by simp [encode, offh, Instr.ofOffh]⟩
theorem oh5 (a b : Bool) : Statement (.oh5 a b) := fun _ rest => ⟨_, rfl, by simp [encode, offh, Instr.ofOffh]⟩
theorem oh7 (a b c : Bool) : Statement (.oh7 a b c) := fun _ rest => ⟨_, rfl, by simp [encode, offh, Instr.ofOffh]⟩
theorem oh8 (a b c d : Bool) : Statement (.oh8 a b c d) := fun _ rest => ⟨_, rfl, by simp [encode, offh, Instr.ofOffh]⟩
theorem l3 : Statement .l3 := fun _ rest => ⟨_, rfl, by simp [encode, len, Instr.ofLen]⟩
theorem l4 : Statement .l4 := fun _ rest => ⟨_, rfl, by simp [encode, len, Instr.ofLen]⟩
theorem l5 : Statement .l5 := fun _ rest => ⟨_, rfl, by simp [encode, len, Instr.ofLen]⟩
theorem l6 : Statement .l6 := fun _ rest => ⟨_, rfl, by simp [encode, len, Instr.ofLen]⟩
theorem l7 (b : Bool) : Statement (.l7 b) := fun _ rest => ⟨_, rfl, by simp [encode, len, Instr.ofLen]⟩
theorem l17 (v : Byte) : Statement (.l17 v) := fun _ rest => ⟨_, rfl, by simp [encode, len, Instr.ofLen]⟩
theorem l9 (b : BitVec 3) : Statement (.l9 b) := fun _ rest => ⟨_, rfl, by simp [encode, len, Instr.ofLen]⟩

end Sys2Proof.Laws.ItemRoundTrip
end

