-- ==== Sys2Proof/Laws/Step.lean ====
section
/-! SUPPORT. What walking a tree does to the source, and the inversions of STEP and START: all that each can do when it answers
a next state. -/

namespace Sys2Proof

/-- What any reads can have done to a source: the input is the same, and `ip` has not moved back nor past the end. -/
def Source.Later (c c' : Source) : Prop :=
  c'.inp = c.inp ∧ c'.inLen = c.inLen ∧ c.ip ≤ c'.ip ∧ (c.ip ≤ c.inLen → c'.ip ≤ c'.inLen) ∧
    (c.cnt ≤ 16 → c'.cnt ≤ 16)

theorem Source.Later.refl (c : Source) : c.Later c := ⟨rfl, rfl, le_refl _, id, id⟩

theorem Source.Later.trans {a b c : Source} (h : a.Later b) (k : b.Later c) : a.Later c :=
  ⟨k.1.trans h.1, k.2.1.trans h.2.1, h.2.2.1.trans k.2.2.1, fun x => k.2.2.2.1 (h.2.2.2.1 x),
    fun x => k.2.2.2.2 (h.2.2.2.2 x)⟩

theorem afterShift_later (c : Source) : c.Later (afterShift c) :=
  ⟨rfl, rfl, le_refl _, id, fun h => by simp [afterShift]; omega⟩

theorem inByte_later {c c' : Source} {v : Byte} (h : inByte c = .ok v c') : c.Later c' := by
  obtain ⟨h0, _, rfl⟩ := inByte_eq_ok.1 h
  exact ⟨rfl, rfl, by simp, fun _ => h0, id⟩

theorem loadCw_later {c c' : Source} {u : Unit} (h : loadCw c = .ok u c') : c.Later c' := by
  obtain ⟨h0, _, _, _, _, rfl⟩ := loadCw_eq_ok.1 h
  exact ⟨rfl, rfl, by simp, fun _ => h0, fun _ => by simp⟩

theorem nextBit_later {c c' : Source} {b : Bool} (h : nextBit c = .ok b c') : c.Later c' := by
  obtain ⟨-, -, ⟨-, rfl⟩ | ⟨-, hl⟩⟩ := nextBit_eq_ok.1 h
  · exact afterShift_later c
  · exact (afterShift_later c).trans (loadCw_later hl)

/-- NEXTBIT keeps the command word whole (10_state.md R14, R15). -/
theorem nextBit_wordOk {c c' : Source} {b : Bool} (h : nextBit c = .ok b c') (hw : c.wordOk) : c'.wordOk := by
  obtain ⟨h0, -, ⟨h1, rfl⟩ | ⟨-, hl⟩⟩ := nextBit_eq_ok.1 h
  · obtain ⟨-, a2, a3⟩ := hw
    refine ⟨by simp [afterShift]; omega, by simp [afterShift]; omega, ?_⟩
    simp only [afterShift, BitVec.toNat_ushiftRight, Nat.shiftRight_eq_div_pow]
    obtain ⟨m, hm⟩ : ∃ m, c.cnt = m + 1 := ⟨c.cnt - 1, by omega⟩
    rw [hm, pow_succ] at a3
    simp [hm]; omega
  · obtain ⟨-, lo, hi, -, -, rfl⟩ := loadCw_eq_ok.1 hl
    exact ⟨by simp [Config.cwWidth], by simp, (pair hi lo).isLt⟩

/-- A tree that answers leaves a later source with a whole command word; where it is cut short, the source is later too. -/
theorem run_later {α : Type} (t : Reader α) (c : Source) :
    (∀ v c', t.run c = .ok v c' → c.Later c' ∧ (c.wordOk → c'.wordOk)) ∧
    (∀ c', t.run c = .truncated c' → c.Later c') := by
  induction t generalizing c with
  | done w =>
    refine ⟨fun v c' h => ?_, fun c' h => by simp at h⟩
    simp only [Reader.run_done, ReadResult.ok.injEq] at h
    rw [← h.2]; exact ⟨.refl c, id⟩
  | bit k ih =>
    refine ⟨fun v c' h => ?_, fun c' h => ?_⟩ <;> simp only [Reader.run_bit] at h
    · obtain ⟨b, c1, h1, h2⟩ := ReadResult.bind_eq_ok.1 h
      have := (ih b c1).1 v c' h2
      exact ⟨(nextBit_later h1).trans this.1, fun w => this.2 (nextBit_wordOk h1 w)⟩
    · obtain h | ⟨b, c1, h1, h2⟩ := ReadResult.bind_eq_truncated.1 h
      · obtain ⟨-, h⟩ := nextBit_eq_truncated.1 h
        obtain ⟨-, rfl⟩ := loadCw_eq_truncated.1 h
        exact afterShift_later c
      · exact (nextBit_later h1).trans ((ih b c1).2 c' h2)
  | byte k ih =>
    refine ⟨fun v c' h => ?_, fun c' h => ?_⟩ <;> simp only [Reader.run_byte] at h
    · obtain ⟨b, c1, h1, h2⟩ := ReadResult.bind_eq_ok.1 h
      have := (ih b c1).1 v c' h2
      obtain ⟨-, -, e⟩ := inByte_eq_ok.1 h1
      exact ⟨(inByte_later h1).trans this.1, fun w => this.2 (by rw [e]; exact w)⟩
    · obtain h | ⟨b, c1, h1, h2⟩ := ReadResult.bind_eq_truncated.1 h
      · obtain ⟨-, rfl⟩ := inByte_eq_truncated.1 h
        exact .refl _
      · exact (inByte_later h1).trans ((ih b c1).2 c' h2)

namespace Machine

/-- Both spaces have the canonical form after reset. -/
theorem reset_memory_wf : State.reset.out.wf = true ∧ State.reset.src.inp.wf = true := by decide

/-- A copy keeps the output buffer whole. -/
theorem copy_covers {n i : Nat} {s t : State} (h : copy n i s = .next t) (hw : s.out.covers s.olen = true) :
    t.out.covers t.olen = true := by
  induction n generalizing i s with
  | zero => simp at h; exact h ▸ hw
  | succ n ih =>
    simp only [copy] at h
    split at h
    · simp at h
    · exact ih h (by simpa using Memory.covers_write hw _)

/-- A copy keeps the canonical form. -/
theorem copy_wf {n i : Nat} {s t : State} (h : copy n i s = .next t) (hw : s.out.wf = true) : t.out.wf = true := by
  induction n generalizing i s with
  | zero => simp at h; exact h ▸ hw
  | succ n ih =>
    simp only [copy] at h
    split at h
    · simp at h
    · exact ih h (by simpa using Memory.wf_write _ _ _ hw)

/-- All that a STEP can do when it answers a next state: it was enabled, and it executed a reference whose parts were read, or
read what its stage calls for and executed it, or was cut short (42_output_engine.md R80). -/
theorem step_cases {s t : State} (h : step s = .next t) :
    s.status = .busy ∧
      ((treeAt s.temps.stage = none ∧ completeReference s = .next t) ∨
        ∃ tr, treeAt s.temps.stage = some tr ∧
          ((∃ i c, tr.run s.src = .ok i c ∧ exec i (s.withSource c) = .next t) ∨
            ∃ c, tr.run s.src = .truncated c ∧ t = takeTruncation c s)) := by
  unfold step at h
  cases hs : s.status <;> simp only [hs, reduceCtorEq] at h
  refine ⟨rfl, ?_⟩
  cases ht : treeAt s.temps.stage with
  | none => simp only [ht] at h; exact .inl ⟨rfl, h⟩
  | some tr =>
    simp only [ht] at h
    refine .inr ⟨tr, rfl, ?_⟩
    cases hr : tr.run s.src with
    | ok i c => simp only [hr] at h; exact .inl ⟨i, c, rfl, h⟩
    | truncated c => simp only [hr] at h; exact .inr ⟨c, rfl, by simpa using h.symm⟩
    | absent a => simp [hr] at h
    | noBits => simp [hr] at h

/-- START where it is not refused, whatever STATUS is. -/
theorem hostStart_of_not_busy {bytes : List Byte} {s : State} (hs : s.status ≠ .busy) :
    hostStart bytes s =
      match loadCw (beginJob bytes s).src with
      | .ok _ c => .next ((beginJob bytes s).withSource c)
      | .truncated c => .next (takeTruncation c (beginJob bytes s))
      | .absent a => .fault (.inputByteAbsent a)
      | .noBits => .fault .bitCountZero := by
  unfold hostStart
  split
  · exact absurd ‹_› hs
  all_goals cases loadCw (beginJob bytes s).src <;> rfl

/-- All that START can do when it answers a next state (70_reset_and_hazards.md R94): STATUS was not BUSY, and LOADCW found its
two bytes or did not. -/
theorem start_cases {bytes : List Byte} {s t : State} (h : hostStart bytes s = .next t) :
    s.status ≠ .busy ∧
      ((bytes.length < 2 ∧ t = takeTruncation (beginJob bytes s).src (beginJob bytes s)) ∨
        ∃ lo hi, bytes[0]? = some lo ∧ bytes[1]? = some hi ∧ t = (beginJob bytes s).withSource
          { inp := Memory.ofBytes bytes, inLen := bytes.length, ip := 2, cw := pair hi lo, cnt := 16 }) := by
  have hs : s.status ≠ .busy := fun e => by simp [hostStart, e] at h
  refine ⟨hs, ?_⟩
  rw [hostStart_of_not_busy hs] at h
  cases hl : loadCw (beginJob bytes s).src with
  | ok u c =>
    simp only [hl, Host.Outcome.next.injEq] at h
    obtain ⟨-, lo, hi, h2, h3, rfl⟩ := loadCw_eq_ok.1 hl
    exact .inr ⟨lo, hi, by simpa using h2, by simpa using h3, h.symm⟩
  | truncated c =>
    simp only [hl, Host.Outcome.next.injEq] at h
    obtain ⟨h1, rfl⟩ := loadCw_eq_truncated.1 hl
    exact .inl ⟨by simpa using h1, h.symm⟩
  | absent a => rw [hl] at h; cases h
  | noBits => rw [hl] at h; cases h

/-- A job that is not BUSY takes no further step. -/
theorem runJob_ended (k : Nat) (s : State) (h : s.status ≠ .busy) : runJob k s = .next s := by
  cases k with
  | zero => rfl
  | succ k => unfold runJob; cases hs : s.status <;> simp_all

end Machine

end Sys2Proof
end

