-- ==== Sys2Proof/Tests/Slice0.lean ====
section
/-! SUPPORT. Tests whose expected results are the spec's: bytes written out from 30_encoding.md's tables, the examples of the
rules, and 95_test_vectors.md (each named in its comment); and one witness for every statement that has hypotheses. -/

namespace Sys2Proof.Tests

open Sys2Proof.Machine Sys2Proof.Claims

/-! ### Helpers -/

/-- The instruction the decoder of a stage reads from an input, right after START. -/
def reads (g : Stage) (bytes : List Byte) : Option Instr :=
  match treeAt g, sourceOn bytes with
  | some t, .ok c _ =>
    match t.run c with
    | .ok i _ => some i
    | _ => none
  | _, _ => none

/-- A BUSY state at a token boundary: START has loaded the stream's first word, and the output is as given. -/
def onStream (bytes out : List Byte) : State :=
  { State.reset with
    src := { inp := Memory.ofBytes bytes, inLen := bytes.length, ip := 2
             cw := pair (bytes.getD 1 0) (bytes.getD 0 0), cnt := 16 }
    out := Memory.ofBytes out
    olen := out.length
    status := .busy }

/-- What a test looks at: STATUS, CAUSE, the output bytes, `ip` and `cnt`. -/
def look : Host.Outcome State Fault Refusal → Option (Status × Cause × List Byte × Nat × Nat)
  | .next t => some (t.status, t.cause, t.out.bytes, t.src.ip, t.src.cnt)
  | _ => none

/-- The error registers after a step: CAUSE, ERR_OFFSET, ERR_START. -/
def lookError : Host.Outcome State Fault Refusal → Option (Cause × Half × Half)
  | .next t => some (t.cause, t.errOffset, t.errStart)
  | _ => none

/-- The parts of an open reference after a sub-code. -/
def lookTemps : Host.Outcome State Fault Refusal → Option Temps
  | .next t => some t.temps
  | _ => none

/-- A read's value and the source after it. -/
def lookRead {α : Type} : ReadResult α → Option (α × Nat × Half × Nat)
  | .ok v c => some (v, c.ip, c.cw, c.cnt)
  | _ => none

/-! ### Well-formedness -/

/-- 30_encoding.md Table 1: `l != 0xFF`. -/
theorem test_wf_refuses_sref_ff : (Instr.sref 0xFF).wf = false ∧ (Instr.sref 0xFE).wf = true := by decide

/-! ### Decoding: streams written out from the encodings -/

/-- 41_tokens.md R66, example. -/
theorem test_decode_lit : reads .token [0x01, 0x00, 0x41] = some (.lit 0x41) := by decide

/-- R67, example. -/
theorem test_decode_eof : reads .token [0x00, 0x00, 0xFF] = some .eof := by decide

/-- R68, example. -/
theorem test_decode_sref : reads .token [0x00, 0x00, 0xFE] = some (.sref 0xFE) := by decide

/-- Table 1, `0 0 [l] 1 h h h` with hhh = 100: bits 2 and 3 of the word. -/
theorem test_decode_mref : reads .token [0x0C, 0x00, 0xD4] = some (.mref 0xD4 4) := by decide

/-- B8: `offset_l = 0xFF` on the MREF path is no EOF. -/
theorem test_decode_mref_ff : reads .token [0x3C, 0x00, 0xFF] = some (.mref 0xFF 7) := by decide

/-- O12, worked decode. -/
theorem test_decode_bref : reads .token [0x06, 0x03, 0x48] = some (.bref 0x48 (.oh7 true false false) .l3) := by decide

/-- O17: the selector of L17 is bit 15, so a word stands before the length byte. -/
theorem test_decode_bref_refill : reads .token [0x02, 0x80, 0x00, 0x00, 0x00, 0xFF] =
    some (.bref 0x00 (.oh8 false false false false) (.l17 0xFF)) := by decide

/-- Table 2, `a 1` with a = 0. -/
theorem test_decode_oh2 : reads .offh [0x02, 0x00] = some (.oh2 false) := by decide

/-- Table 2, `a 0 1` with a = 1. -/
theorem test_decode_oh3 : reads .offh [0x05, 0x00] = some (.oh3 true) := by decide

/-- Table 2, `a 0 0 b 1` with ab = 10. -/
theorem test_decode_oh5 : reads .offh [0x11, 0x00] = some (.oh5 true false) := by decide

/-- Table 2, `a 0 0 b 0 c 1` with abc = 001. -/
theorem test_decode_oh7 : reads .offh [0x60, 0x00] = some (.oh7 false false true) := by decide

/-- Table 2, `a 0 0 b 0 c 0 d` with abcd = 1101. -/
theorem test_decode_oh8 : reads .offh [0x89, 0x00] = some (.oh8 true true false true) := by decide

/-- Table 3, `1`. -/
theorem test_decode_l3 : reads .len [0x01, 0x00] = some .l3 := by decide

/-- Table 3, `0 1`. -/
theorem test_decode_l4 : reads .len [0x02, 0x00] = some .l4 := by decide

/-- Table 3, `0 0 1`. -/
theorem test_decode_l5 : reads .len [0x04, 0x00] = some .l5 := by decide

/-- Table 3, `0 0 0 1`. -/
theorem test_decode_l6 : reads .len [0x08, 0x00] = some .l6 := by decide

/-- Table 3, `0 0 0 0 1 b` with b = 0. -/
theorem test_decode_l7 : reads .len [0x10, 0x00] = some (.l7 false) := by decide

/-- Table 3, `0 0 0 0 0 1 [v]`. -/
theorem test_decode_l17 : reads .len [0x20, 0x00, 0x53] = some (.l17 0x53) := by decide

/-- Table 3, `0 0 0 0 0 0 b b b` with bbb = 100: bit 6. -/
theorem test_decode_l9 : reads .len [0x40, 0x00] = some (.l9 4) := by decide

/-- The one row with bit numbers, `a 0 0 b 0 c 0 d` with `a` at bit 7: abcd = 1011. -/
theorem test_table_word_oh8 : decodeTableWord 8 0x85 = some (.oh8 true false true true) := by decide

/-! ### The Command Bit Source -/

/-- 40_bit_source.md R60, example. -/
theorem test_loadCw : lookRead (loadCw { inp := Memory.ofBytes [0x34, 0x12], inLen := 2, ip := 0, cw := 0, cnt := 0 }) =
    some ((), 2, 0x1234, 16) := by decide

/-- R61, example: three NEXTBITs on 0x0005 give 1, 0, 1. -/
theorem test_nextBit : lookRead (nextBitsFrom 3 0 { inp := [], inLen := 0, ip := 0, cw := 0x0005, cnt := 16 }) =
    some (5, 0, 0x0000, 13) := by decide

/-- R62, example: the field crosses a word boundary. The example's 0x8000 is the loaded word; with one unread bit left, the
register holds 0x0001 (10_state.md R14; notes/assumptions/19.md). -/
theorem test_nextBits_crosses :
    lookRead (nextBits 3 { inp := Memory.ofBytes [0x02, 0x00], inLen := 2, ip := 0, cw := 0x8000 >>> 15, cnt := 1 }) =
      some (5, 2, 0x0000, 14) := by decide

/-! ### One step -/

/-- T-LIT1. -/
theorem test_step_lit : look (step (onStream [0x01, 0x00, 0x41, 0xFF] [])) = some (.busy, .none, [0x41], 3, 15) := by decide

/-- 42_output_engine.md R79, example: `olen = 65535` and a literal. -/
theorem test_step_lit_overflow :
    lookError (step { onStream [0x01, 0x00, 0x00, 0xFF] [] with olen := 65535 }) =
      some (.outputSizeOverflow, 0, 0) := by decide

/-- 42_output_engine.md R78, example. -/
theorem test_step_eof : look (step (onStream [0x00, 0x00, 0xFF] [])) = some (.done, .none, [], 3, 13) := by decide

/-- T-SREF1, its third step. -/
theorem test_step_sref : look (step (onStream [0x00, 0x00, 0xFE, 0xFF] [0x41, 0x42])) =
    some (.busy, .none, [0x41, 0x42, 0x41, 0x42], 3, 13) := by decide

/-- S4a, its second step: (-2, 65535) at `olen = 1`. -/
theorem test_step_sref_invalid : lookError (step (onStream [0x00, 0x00, 0xFE] [0x41])) =
    some (.invalidAddress, 0xFFFE, 0xFFFF) := by decide

/-- T-MREF1: (-300, 65236). -/
theorem test_step_mref_invalid : lookError (step (onStream [0x3C, 0x00, 0xD4, 0xFF] [])) =
    some (.invalidAddress, 0xFED4, 65236) := by decide

/-- P3, its fourth step: MREF -257 at `olen = 5` gives (0xFEFF, 0xFF04). -/
theorem test_step_mref_invalid_near :
    lookError (step (onStream [0x3C, 0x00, 0xFF] [0x01, 0x02, 0x01, 0x02, 0x01])) =
      some (.invalidAddress, 0xFEFF, 0xFF04) := by decide

/-- E1's copy, BREF -3, 7 [OH2 L7]: `0 1 1 1 0 0 0 0 1 0` after three bytes. Period 3. -/
theorem test_step_bref_overlap : look (step (onStream [0x0E, 0x01, 0xFD] [0x01, 0x02, 0x03])) =
    some (.busy, .none, [0x01, 0x02, 0x03, 0x01, 0x02, 0x03, 0x01, 0x02, 0x03, 0x01], 3, 6) := by decide

/-- O17: (-8192, 57344), with a refill inside the token. -/
theorem test_step_bref_invalid : lookError (step (onStream [0x02, 0x80, 0x00, 0x00, 0x00, 0xFF] [])) =
    some (.invalidAddress, 0xE000, 57344) := by decide

/-- B3: the stream ends before `offset_l`. -/
theorem test_step_truncation : lookError (step (onStream [0x00, 0x00] [])) = some (.truncation, 0, 0) := by decide

/-- 41_tokens.md R71 and 30_encoding.md Table 2: OH2, both values. -/
theorem test_exec_oh2 : offhHigh (.oh2 false) = 0xFE ∧ offhHigh (.oh2 true) = 0xFF := by decide

/-- R71, corner case: the correction after no extension. -/
theorem test_exec_oh3 : offhHigh (.oh3 false) = 0xFC ∧ offhHigh (.oh3 true) = 0xFD := by decide

/-- R71, example: bits `1 0 0 1 1`. -/
theorem test_exec_oh5 : lookTemps (exec (.oh5 true true) (openReference 0x24 State.reset)) =
    some { stage := .len, offsetL := 0x24, offsetH := 0xFB, length := 0 } := by decide

/-- O12: abc = 100. -/
theorem test_exec_oh7 : lookTemps (exec (.oh7 true false false) (openReference 0x48 State.reset)) =
    some { stage := .len, offsetL := 0x48, offsetH := 0xF4, length := 0 } := by decide

/-- O15: abcd = 1100, offset -5000 = 0xEC78. The row's own word, through `withFetchWord`: `1 0 0 1 0 0 0 0`. -/
theorem test_exec_oh8 : lookTemps (step (State.reset.withFetchWord 8 0x90)) =
    some { stage := .len, offsetL := 0, offsetH := 0xEC, length := 0 } := by decide

/-- Table 3: 3, 4, 5 and 6. -/
theorem test_exec_l3_to_l6 :
    (lookTemps (exec .l3 State.reset)).map Temps.length = some 3 ∧
    (lookTemps (exec .l4 State.reset)).map Temps.length = some 4 ∧
    (lookTemps (exec .l5 State.reset)).map Temps.length = some 5 ∧
    (lookTemps (exec .l6 State.reset)).map Temps.length = some 6 := by decide

/-- N7, N8. -/
theorem test_exec_l7 : lenValue (.l7 false) = 7 ∧ lenValue (.l7 true) = 8 := by decide

/-- N17, N272: no 8-bit wrap (90_conflicts.md C2). -/
theorem test_exec_l17 : lenValue (.l17 0x00) = 17 ∧ lenValue (.l17 0xFF) = 272 := by decide

/-- N9, N16. -/
theorem test_exec_l9 : lenValue (.l9 0) = 9 ∧ lenValue (.l9 7) = 16 := by decide

/-! ### The host -/

/-- B1, B2: an input shorter than a command word ends in Truncation at START. -/
theorem test_start_short : lookError (hostStart [0x00] State.reset) = some (.truncation, 0, 0) ∧
    lookError (hostStart [] State.reset) = some (.truncation, 0, 0) := by decide

/-! ### The assembler -/

/-- 30_encoding.md R44, example: 17 literals and EOF. -/
theorem test_assemble_placement :
    assemble ((List.range 17).map (fun k => Instr.lit (BitVec.ofNat 8 (0x10 + k))) ++ [.eof]) =
      [0xFF, 0xFF, 0x10, 0x11, 0x12, 0x13, 0x14, 0x15, 0x16, 0x17, 0x18, 0x19, 0x1A, 0x1B, 0x1C, 0x1D, 0x1E,
        0x01, 0x00, 0x1F, 0x20, 0xFF] := by decide

/-- P3, with REF choosing each form. -/
theorem test_assemble_P3 :
    ([some (.lit 0x01), some (.lit 0x02), asmRef (-2) 3, asmRef (-257) 2, some (.lit 0x09), some .eof].mapM id).map assemble =
      some [0x7B, 0x3E, 0x01, 0x02, 0xFE, 0xFF, 0x09, 0x00, 0x00, 0xFF] := by decide

/-! ### Witnesses: for each statement with hypotheses, a concrete case that meets them all, at the ends of each clause's range -/

/-- A BUSY state whose output holds `n` bytes. -/
def whole (n : Nat) : State := onStream [0x00, 0x00, 0xFF] (List.replicate n 0x41)

theorem whole_outputOk (n : Nat) : (whole n).outputOk := Memory.covers_ofBytes _

theorem whole_olen (n : Nat) : (whole n).olen = n := List.length_replicate

theorem onStream_inv (bytes out : List Byte) (hb : 2 ≤ bytes.length) (ho : out.length ≤ 65535) : (onStream bytes out).Inv where
  input := ⟨Memory.covers_ofBytes bytes, hb⟩
  count := by simp [onStream]
  word := fun _ => ⟨by simp [onStream], by simp [onStream], BitVec.isLt _⟩
  output := Memory.covers_ofBytes out
  status := ⟨by simp [onStream, State.reset], fun _ => ⟨rfl, rfl⟩⟩
  ceiling := fun _ => ho
  capacity := by simp [onStream, Config.outCap, Config.sizeLimit, Config.maxCopy]; omega
  boundary := rfl

theorem witness_StartBeginsAJob : (whole 0).status = .busy ∧ State.reset.status ≠ .busy ∧
    ([0x00, 0x00] : List Byte) = 0x00 :: 0x00 :: [] ∧ ([0x00] : List Byte).length < 2 ∧ ([] : List Byte).length < 2 := by decide

theorem witness_StartKeepsTheBoundaryInvariant : ∃ t, (onStream [0x00, 0x00] []).Inv ∧ State.Inv
    { onStream [0x00, 0x00] [] with status := .done } ∧
    hostStart [0x00, 0x00, 0xFF] { onStream [0x00, 0x00] [] with status := .done } = .next t := by
  have h := onStream_inv [0x00, 0x00] [] (by decide) (by decide)
  exact ⟨_, h, ⟨h.input, h.count, by simp, h.output, ⟨by simp [onStream, State.reset], fun _ => ⟨rfl, rfl⟩⟩, fun _ => h.ceiling (by decide),
    h.capacity, rfl⟩, rfl⟩

theorem witness_StepIsRefusedUnlessBusy : State.reset.status ≠ .busy := by decide

theorem witness_HostReadsOnlyAfterTheJob : ¬ State.reset.ended ∧ ¬ (whole 0).ended ∧
    State.ended { State.reset with status := .done } ∧ State.ended { State.reset with status := .error } := by
  unfold State.ended; decide

theorem witness_JobResultIsTheOutputOrTheError :
    State.outputOk { whole 2 with status := .done } ∧ 1 < (whole 2).olen ∧ State.outputOk { whole 2 with status := .error } ∧
      (whole 2).outputOk ∧ ¬ (whole 2).ended := by
  unfold State.outputOk State.ended; decide

/-- One byte left, none left, two left, one left of two. -/
theorem witness_InputReadsEndAtTheInputLength :
    let c := fun ip => ({ inp := Memory.ofBytes [0x00, 0x00], inLen := 2, ip := ip, cw := 0, cnt := 16 } : Source)
    (c 0).inp.covers (c 0).inLen = true ∧ (c 1).ip + 1 ≤ (c 1).inLen ∧ (c 2).inLen < (c 2).ip + 1 ∧
      (c 0).ip + 2 ≤ (c 0).inLen ∧ (c 1).inLen < (c 1).ip + 2 := by decide

theorem witness_NextBitRefillsBeforeItDelivers :
    let c := fun ip cnt => ({ inp := Memory.ofBytes [0x34, 0x12], inLen := 2, ip := ip, cw := 1, cnt := cnt } : Source)
    2 ≤ (c 2 2).cnt ∧ ((c 0 1).cnt = 1 ∧ (c 0 1).ip + 2 ≤ (c 0 1).inLen ∧ (c 0 1).inp.read 0 = some 0x34 ∧
      (c 0 1).inp.read 1 = some 0x12) ∧ (c 1 1).cnt = 1 ∧ (c 1 1).inLen < (c 1 1).ip + 2 := by decide

/-- A field that crosses into a new word after its first bit. -/
theorem witness_FieldsAreBigEndian : ∃ c0 c1 c2 c3 : Source,
    nextBit c0 = .ok true c1 ∧ nextBit c1 = .ok false c2 ∧ nextBit c2 = .ok true c3 :=
  ⟨{ inp := Memory.ofBytes [0x02, 0x00], inLen := 2, ip := 0, cw := 1, cnt := 1 }, _, _, _, rfl, rfl, rfl⟩

/-- The first and the last bit of a word, and a raw byte. -/
theorem witness_CommandWordIsTheLoadedWordShifted : ∃ c c' d d' d'' : Source,
    (c.cnt = 16 ∧ c.cw = (0x8001 : Half) >>> (16 - c.cnt) ∧ nextBit c = .ok true c') ∧
      (d.cnt = 1 ∧ d.cw = (0x8001 : Half) >>> (16 - d.cnt) ∧ nextBit d = .ok true d' ∧ inByte d = .ok 0x34 d'') :=
  ⟨{ inp := [], inLen := 0, ip := 0, cw := 0x8001, cnt := 16 }, _,
    { inp := Memory.ofBytes [0x34, 0x12], inLen := 2, ip := 0, cw := 0x0001, cnt := 1 }, _, _,
    ⟨rfl, by decide, rfl⟩, rfl, by decide, rfl, rfl⟩

theorem witness_StepRunsTheDecodedInstruction : ∃ t i c, (whole 0).status = .busy ∧
    treeAt (whole 0).temps.stage = some t ∧ t.run (whole 0).src = .ok i c := ⟨readToken, .eof, _, rfl, rfl, rfl⟩

theorem witness_ShortInputRaisesTruncation : ∃ t c, let s := onStream [0x00, 0x00] []
    s.status = .busy ∧ treeAt s.temps.stage = some t ∧ s.src.ip ≤ s.src.inLen ∧ t.run s.src = .truncated c :=
  ⟨readToken, _, rfl, rfl, by decide, rfl⟩

theorem witness_LitAppendsItsByte : (whole 0).olen < 65535 ∧ State.olen { whole 0 with olen := 65534 } < 65535 := by decide

/-- The nearest displacement from the start of the output, and the last state a copy of two completes in. -/
theorem witness_SrefCopiesTwoBytes : ∀ n ∈ [2, 65533], (whole n).outputOk ∧ distance (.sref 0xFE) ≤ (whole n).olen ∧
    (whole n).olen + copyLength (.sref 0xFE) ≤ 65535 := by
  intro n hn
  refine ⟨whole_outputOk n, ?_⟩
  rw [whole_olen]; revert n; decide

theorem witness_MrefCopiesTwoBytes : ∀ n ∈ [257, 65533], (whole n).outputOk ∧ distance (.mref 0xFF 7) ≤ (whole n).olen ∧
    (whole n).olen + copyLength (.mref 0xFF 7) ≤ 65535 := by
  intro n hn
  refine ⟨whole_outputOk n, ?_⟩
  rw [whole_olen]; revert n; decide

/-- -1 at length 272, and -8192 at length 3. -/
theorem witness_BrefCopiesItsLength : ∀ p ∈ [(1, Instr.bref 0xFF (.oh2 true) (.l17 0xFF)),
      (65532, Instr.bref 0x00 (.oh8 false false false false) .l3)],
    (whole p.1).outputOk ∧ distance p.2 ≤ (whole p.1).olen ∧ (whole p.1).olen + copyLength p.2 ≤ 65535 := by
  intro p hp
  refine ⟨whole_outputOk p.1, ?_⟩
  rw [whole_olen]; revert p; decide

/-- The nearest and the farthest reference, each one byte too far. -/
theorem witness_FarReferencesRaiseInvalidAddress : ∀ p ∈ [(0, Instr.bref 0xFF (.oh2 true) .l3), (1, Instr.sref 0xFE),
      (8191, Instr.bref 0x00 (.oh8 false false false false) .l3)],
    isReference p.2 = true ∧ (whole p.1).olen ≤ 65535 ∧ (whole p.1).olen < distance p.2 := by
  intro p hp
  rw [whole_olen]; revert p; decide

theorem witness_TokensPastTheCeilingRaiseOverflow : 65535 ≤ (whole 65535).olen ∧
    ∀ p ∈ [(65534, Instr.sref 0xFE), (65535, Instr.bref 0xFF (.oh2 true) (.l17 0xFF))],
      isReference p.2 = true ∧ (whole p.1).outputOk ∧ (whole p.1).olen ≤ 65535 ∧ distance p.2 ≤ (whole p.1).olen ∧
        65535 < (whole p.1).olen + copyLength p.2 := by
  refine ⟨by rw [whole_olen], fun p hp => ?_⟩
  rw [whole_olen]
  have h := whole_outputOk p.1
  refine ⟨?_, h, ?_⟩ <;> clear h <;> revert p <;> decide

/-- Both ends of both tables. -/
theorem witness_SubCodesPartition : tableHigh (.oh8 false false false false) = 0xE0 ∧ tableHigh (.oh2 true) = 0xFF ∧
    tableLength .l3 = 3 ∧ tableLength (.l17 0xFF) = 272 := by decide

theorem witness_BrefIsItsSubCodesInOrder : (whole 0).status = .busy := by decide

/-- The ends of the three forms' ranges. -/
theorem witness_DecodedReferencesStayInRange : ∀ p ∈ [(Instr.sref 0xFE, (0xFFFE : Half), (2 : Half)), (.mref 0x00 0, 0xF700, 2),
      (.bref 0xFF (.oh2 true) (.l17 0xFF), 0xFFFF, 272), (.bref 0x00 (.oh8 false false false false) .l3, 0xE000, 3)],
    p.1.wf = true ∧ tokenOf p.1 = some (.backReference p.2.1 p.2.2) := by decide

theorem witness_EachTokenValueHasOneEncoding : (Instr.sref 0x00).wf = true ∧ (Instr.sref 0x00).isToken = true ∧
    tokenOf (.sref 0x00) = tokenOf (.sref 0x00) ∧ (∀ off ∈ [(-256 : Int), -2], -256 ≤ off ∧ off ≤ -2) ∧
    (∀ off ∈ [(-2304 : Int), -257], -2304 ≤ off ∧ off ≤ -257) ∧
    (∀ p ∈ [((-8192 : Int), 3), (-1, 272)], -8192 ≤ p.1 ∧ p.1 ≤ -1 ∧ 3 ≤ p.2 ∧ p.2 ≤ 272) := by decide

/-- `olen = -offset`, one less, and the ceiling. -/
theorem witness_StartIndexWrapsAtSixteenBits : ∀ p ∈ [(4, (0xFFFC : Half), true), (3, 0xFFFC, false), (65535, 0xE000, true)],
    p.1 ≤ 65535 ∧ asI16 p.2.1 < 0 ∧ (-(asI16 p.2.1) ≤ (p.1 : Int) ↔ p.2.2 = true) := by decide

/-- LIT with its flag in the last bit of a word: the next word stands before the value. -/
theorem witness_DecodingUndoesEncodingInTheStream : (Instr.lit 0x41).wf = true ∧
    treeAt (Instr.lit 0x41).stage = some readToken ∧
    Carries { inp := Memory.ofBytes [0x00, 0x00, 0x41], inLen := 3, ip := 0, cw := 1, cnt := 1 } (encode (.lit 0x41) ++ []) := by
  refine ⟨by decide, rfl, by decide, by decide, by decide, fun k b h => ?_⟩
  have e : (place (encode (.lit 0x41) ++ []) 1).2 = [0x00, 0x00, 0x41] := by decide
  simp only [e] at h
  obtain ⟨hk, -⟩ := List.getElem?_eq_some_iff.1 h
  simp only [List.length_cons, List.length_nil] at hk
  exact ⟨by simpa using hk, by simpa using h⟩

theorem witness_AssembledProgramsDecodeToThemselves : ∀ i ∈ [Instr.lit 0x41, .sref 0xFE, .eof], i.wf = true ∧ i.isToken = true := by
  decide

theorem witness_DecodedItemsAreTheEncoding : ∃ t, treeAt .offh = some t ∧
    t.runItems [.bit true, .bit true, .byte 0x41] = some (.oh2 true, [.byte 0x41]) := ⟨_, rfl, rfl⟩

theorem witness_EveryLongEnoughInputDecodes : ∀ n ∈ [1, 16],
    let c : Source := { inp := Memory.ofBytes [0, 0, 0, 0, 0], inLen := 5, ip := 0, cw := 0, cnt := n }
    c.inp.covers c.inLen = true ∧ 1 ≤ c.cnt ∧ c.cnt ≤ 16 ∧ c.ip + 5 ≤ c.inLen := by decide

theorem witness_TokensConsumeTheirBitsAndBytes : ∃ c', Instr.eof.isToken = true ∧ 1 ≤ (whole 0).src.cnt ∧
    (whole 0).src.cnt ≤ 16 ∧ decodeToken (whole 0).src = .ok .eof c' := ⟨_, by decide, by decide, by decide, rfl⟩

/-- S2b and S2a: the two bytes are there, or are not. -/
theorem witness_EofAtTheEndOfAWordNeedsTwoMoreBytes : ∀ bytes ∈ [[0xFF, 0x00, 0x00], [0xFF, 0x00], [(0xFF : Byte)]],
    let s : State := { onStream bytes [] with
      src := { inp := Memory.ofBytes bytes, inLen := bytes.length, ip := 0, cw := 0, cnt := 3 } }
    s.status = .busy ∧ s.temps.stage = .token ∧ s.src.inp.covers s.src.inLen = true ∧ s.src.cnt = 3 ∧ s.src.cw = 0 ∧
      s.src.inp.read s.src.ip = some 0xFF ∧ (s.src.ip + 3 ≤ s.src.inLen ↔ bytes.length = 3) := by decide

theorem witness_RefillComesBeforeTheRawByte :
    let c : Source := { inp := Memory.ofBytes [0x34, 0x12, 0x41], inLen := 3, ip := 0, cw := 1, cnt := 1 }
    c.cnt = 1 ∧ c.cw = 1 ∧ c.ip + 3 ≤ c.inLen ∧ c.inp.read c.ip = some 0x34 ∧ c.inp.read (c.ip + 1) = some 0x12 ∧
      c.inp.read (c.ip + 2) = some 0x41 := by decide

theorem witness_RunAppendsCopies : (3 < 4 ∧ 273 < 274) ∧
    ∀ p ∈ [(4, 0), (4, 65531), (273, 65262)], 4 ≤ p.1 ∧ p.1 ≤ 273 ∧ (whole p.2).outputOk ∧ (whole p.2).olen + p.1 ≤ 65535 := by
  refine ⟨by decide, fun p hp => ?_⟩
  have h := whole_outputOk p.2
  rw [whole_olen]
  refine ⟨?_, ?_, h, ?_⟩ <;> clear h <;> revert p <;> decide

/-- The ends of REF's ranges, and one value beyond each. -/
theorem witness_RefPicksTheOneForm :
    (∀ off ∈ [(-256 : Int), -2], -256 ≤ off ∧ off ≤ -2) ∧ (∀ off ∈ [(-2304 : Int), -257], -2304 ≤ off ∧ off ≤ -257) ∧
    (∀ p ∈ [(3, (-8192 : Int)), (272, -1)], 3 ≤ p.1 ∧ p.1 ≤ 272 ∧ -8192 ≤ p.2 ∧ p.2 ≤ -1) ∧
    (∀ p ∈ [(2, (-1 : Int)), (2, -2305), (3, 0), (3, -8193), (273, -1), (1, -2)],
      ¬ (p.1 = 2 ∧ -2304 ≤ p.2 ∧ p.2 ≤ -2) ∧ ¬ (3 ≤ p.1 ∧ p.1 ≤ 272 ∧ -8192 ≤ p.2 ∧ p.2 ≤ -1)) := by decide

/-- A step that copies, from a state that meets the invariant. -/
theorem witness_EveryStepKeepsTheBoundaryInvariant : ∃ t,
    (onStream [0x00, 0x00, 0xFE] [0x41, 0x42]).Inv ∧ step (onStream [0x00, 0x00, 0xFE] [0x41, 0x42]) = .next t :=
  ⟨_, onStream_inv _ _ (by decide) (by decide), rfl⟩

theorem witness_BusyStepsAlwaysComplete : (onStream [0x00, 0x00] []).Inv ∧ (onStream [0x00, 0x00] []).status = .busy :=
  ⟨onStream_inv _ _ (by decide) (by decide), rfl⟩

theorem witness_EveryStepKeepsMemoryCanonical : ∃ t, (whole 2).out.wf = true ∧ (whole 2).src.inp.wf = true ∧
    step (whole 2) = .next t := ⟨_, by decide, by decide, rfl⟩

/-- A step, the last address below the old output and the first above the new. -/
theorem witness_StepsOnlyMoveForward : ∃ t, step (onStream [0x00, 0x00, 0xFE] [0x41, 0x42]) = .next t ∧
    1 < (onStream [0x00, 0x00, 0xFE] [0x41, 0x42]).olen ∧ t.olen ≤ 4 := ⟨_, rfl, by decide, by decide⟩

/-- A step that ends in DONE and one that does not. -/
theorem witness_OnlyEofReachesDone : ∃ t u, (whole 0).status = .busy ∧ (whole 0).temps.stage = .token ∧
    step (whole 0) = .next t ∧ t.status = .done ∧
    step (onStream [0x01, 0x00, 0x41] []) = .next u ∧ u.status = .busy := ⟨_, _, rfl, rfl, rfl, rfl, rfl, rfl⟩

/-- One step for each of the three errors. -/
theorem witness_EachErrorComesFromItsTokens : ∃ t u v,
    (step (onStream [0x00, 0x00] []) = .next t ∧ t.status = .error ∧ t.cause = .truncation) ∧
    (step (onStream [0x00, 0x00, 0xFE] []) = .next u ∧ u.status = .error ∧ u.cause = .invalidAddress) ∧
    (step { onStream [0x01, 0x00, 0x41] [] with olen := 65535 } = .next v ∧ v.status = .error ∧ v.cause = .outputSizeOverflow) :=
  ⟨_, _, _, ⟨rfl, rfl, rfl⟩, ⟨rfl, rfl, rfl⟩, ⟨rfl, rfl, rfl⟩⟩

/-- T-EOF2 and T-EOF1: trailing bytes, changed or cut off right at `ip`. -/
theorem witness_InputBehindIpIsNeverRead : ∃ t, step (onStream [0x00, 0x00, 0xFF, 0x12] []) = .next t ∧
    (t.status = .error → t.cause ≠ .truncation) ∧ t.src.ip ≤ 3 ∧
    ∀ a, a < t.src.ip → Memory.read (Memory.ofBytes [0x00, 0x00, 0xFF]) a = (onStream [0x00, 0x00, 0xFF, 0x12] []).src.inp.read a := by
  refine ⟨_, rfl, by decide, by decide, fun a ha => ?_⟩
  have : a < 3 := ha
  revert a; decide

theorem witness_EveryJobEnds : ∃ t u, hostStart [0x00, 0x00, 0xFF] State.reset = .next t ∧ runJob 1 t = .next u :=
  ⟨_, _, rfl, rfl⟩

theorem witness_JobsDependOnTheirInputAlone : ∃ t u, State.reset.status ≠ .busy ∧
    State.status { whole 2 with status := .done } ≠ .busy ∧
    hostStart [0x00, 0x00, 0xFF] State.reset = .next t ∧ runJob 1 t = .next u := ⟨_, _, by decide, by decide, rfl, rfl⟩

end Sys2Proof.Tests
end

/-! What the input reads, NEXTBIT and NEXTBITS deliver (20_memory.md R28, R31 to R33), and the obligations about them. -/

namespace Sys2Proof

/-! ### Input reads -/

/-- `pair` is the arithmetic of 00_scope.md section 4: the high byte counts 256. -/
theorem pair_eq_ofNat (hi lo : Byte) : pair hi lo = BitVec.ofNat 16 (256 * hi.toNat + lo.toNat) := by
  apply BitVec.eq_of_toNat_eq
  rw [pair, BitVec.toNat_append, Nat.shiftLeft_eq, Nat.mul_comm, ← Nat.two_pow_add_eq_or_of_lt lo.isLt, BitVec.toNat_ofNat]
  have := hi.isLt
  have := lo.isLt
  omega

/-- A whole input holds the byte InByte reads, wherever `ip` is inside the bound. -/
theorem inByte_of_covers {c : Source} (hc : c.inp.covers c.inLen = true) (h : c.ip + 1 ≤ c.inLen) :
    ∃ v, c.inp.read c.ip = some v ∧ inByte c = .ok v { c with ip := c.ip + 1 } := by
  obtain ⟨v, hv⟩ := Machine.Memory.exists_read_of_covers hc (a := c.ip) (by omega)
  exact ⟨v, hv, inByte_eq_ok.2 ⟨h, hv, rfl⟩⟩

/-- A whole input holds both bytes LOADCW reads, and the word they make is little-endian (20_memory.md R31). -/
theorem loadCw_of_covers {c : Source} (hc : c.inp.covers c.inLen = true) (h : c.ip + 2 ≤ c.inLen) :
    ∃ lo hi, c.inp.read c.ip = some lo ∧ c.inp.read (c.ip + 1) = some hi ∧
      loadCw c = .ok () { c with ip := c.ip + 2, cw := BitVec.ofNat 16 (256 * hi.toNat + lo.toNat), cnt := 16 } := by
  obtain ⟨lo, hlo⟩ := Machine.Memory.exists_read_of_covers hc (a := c.ip) (by omega)
  obtain ⟨hi, hhi⟩ := Machine.Memory.exists_read_of_covers hc (a := c.ip + 1) (by omega)
  exact ⟨lo, hi, hlo, hhi, loadCw_eq_ok.2 ⟨h, lo, hi, hlo, hhi, by rw [pair_eq_ofNat]⟩⟩

/-- Settles O9: the bytes a read needs are held because the input is whole; past the bound, LOADCW and InByte test the
length before they read. -/
theorem inputReadsEndAtTheInputLength : Obligations.InputReadsEndAtTheInputLength := fun _ hc =>
  ⟨inByte_of_covers hc, fun h => inByte_eq_truncated.2 ⟨h, rfl⟩,
    loadCw_of_covers hc, fun h => loadCw_eq_truncated.2 ⟨h, rfl⟩⟩

/-! ### The command word between refills -/

/-- While bits are left, NEXTBIT takes the lowest bit and shifts the word. -/
theorem eq_afterShift_of_nextBit {c c' : Source} {b : Bool} (h : nextBit c = .ok b c') (hcnt : 2 ≤ c.cnt) :
    c' = afterShift c := by
  obtain ⟨-, -, ⟨-, hc'⟩ | ⟨h1, -⟩⟩ := nextBit_eq_ok.1 h
  · exact hc'
  · omega

/-- With the last bit of a word, NEXTBIT brings in the next word (40_bit_source.md R60, R61). -/
theorem refill_of_nextBit {c c' : Source} {b : Bool} (h : nextBit c = .ok b c') (hcnt : c.cnt = 1) :
    ∃ lo hi, c.inp.read c.ip = some lo ∧ c.inp.read (c.ip + 1) = some hi ∧
      c' = { c with ip := c.ip + 2, cw := BitVec.ofNat 16 (256 * hi.toNat + lo.toNat), cnt := 16 } := by
  obtain ⟨-, -, ⟨h1, -⟩ | ⟨-, hload⟩⟩ := nextBit_eq_ok.1 h
  · exact absurd hcnt h1
  · obtain ⟨-, lo, hi, hlo, hhi, rfl⟩ := loadCw_eq_ok.1 hload
    exact ⟨lo, hi, hlo, hhi, by rw [pair_eq_ofNat]; rfl⟩

/-- If `cw` is the loaded word less the bits taken, its lowest bit is the loaded word's bit of that number (R32). -/
theorem lowest_bit_of_shifted {c : Source} {w : Half} (hw : c.cw = w >>> (16 - c.cnt)) :
    c.cw.getLsbD 0 = w.getLsbD (16 - c.cnt) := by
  rw [hw, BitVec.getLsbD_ushiftRight, Nat.add_zero]

/-- NEXTBIT's shift keeps `cw` the loaded word less the bits taken (10_state.md R14). -/
theorem afterShift_cw_of_shifted {c : Source} {w : Half} (h1 : 1 ≤ c.cnt) (h16 : c.cnt ≤ 16)
    (hw : c.cw = w >>> (16 - c.cnt)) : (afterShift c).cw = w >>> (16 - (afterShift c).cnt) := by
  have htaken : 16 - (c.cnt - 1) = 16 - c.cnt + 1 := by omega
  simp only [afterShift]
  rw [hw, htaken, BitVec.shiftRight_add]

/-- Settles O13: what holds of `cw` between refills is kept by NEXTBIT's shift, and re-established by its refill. -/
theorem commandWordIsTheLoadedWordShifted : Obligations.CommandWordIsTheLoadedWordShifted := by
  intro c c' w h1 h16 hw
  refine ⟨fun b h => ⟨?bit, fun hcnt => ?shift, fun hcnt => ?refill⟩, fun v h => ?rawByte⟩
  case bit =>
    obtain ⟨-, hb, -⟩ := nextBit_eq_ok.1 h
    exact hb.trans (lowest_bit_of_shifted hw)
  case shift =>
    rw [eq_afterShift_of_nextBit h hcnt]
    exact ⟨rfl, afterShift_cw_of_shifted h1 h16 hw, rfl⟩
  case refill =>
    obtain ⟨lo, hi, hlo, hhi, rfl⟩ := refill_of_nextBit h hcnt
    exact ⟨rfl, rfl, lo, hi, hlo, hhi, rfl⟩
  case rawByte =>
    obtain ⟨-, -, rfl⟩ := inByte_eq_ok.1 h
    exact ⟨rfl, rfl, rfl⟩

/-! ### Fields -/

@[simp] theorem nextBitsFrom_zero (v : Nat) (c : Source) : nextBitsFrom 0 v c = .ok v c := rfl

/-- A field goes on, after one bit, with twice what it has gathered and that bit (40_bit_source.md R62). -/
theorem nextBitsFrom_succ_of_nextBit {c c' : Source} {b : Bool} (h : nextBit c = .ok b c') (n v : Nat) :
    nextBitsFrom (n + 1) v c = nextBitsFrom n (2 * v + bitNat b) c' := by
  rw [nextBitsFrom, h, ReadResult.bind_ok]

/-- Settles O11: the bits are gathered one by one, each doubling the value of those before it. -/
theorem fieldsAreBigEndian : Obligations.FieldsAreBigEndian := by
  refine ⟨fun c0 c1 c2 c3 b0 b1 b2 h0 h1 h2 => ?three, fun c0 c1 b h => ?one⟩
  case three =>
    have hvalue : 2 * (2 * (2 * 0 + bitNat b0) + bitNat b1) + bitNat b2 =
        bitNat b0 * 4 + bitNat b1 * 2 + bitNat b2 := by omega
    rw [nextBits, nextBitsFrom_succ_of_nextBit h0, nextBitsFrom_succ_of_nextBit h1, nextBitsFrom_succ_of_nextBit h2,
      nextBitsFrom_zero, hvalue]
  case one =>
    rw [nextBits, nextBitsFrom_succ_of_nextBit h, nextBitsFrom_zero, Nat.mul_zero, Nat.zero_add]

end Sys2Proof

/-! What NEXTBIT answers for each count of unread bits (40_bit_source.md R61), and the obligation about it. -/

namespace Sys2Proof

/-- With two or more bits left, NEXTBIT takes the lowest bit and reads no input. -/
theorem nextBit_of_two_le {c : Source} (hcnt : 2 ≤ c.cnt) : nextBit c = .ok (c.cw.getLsbD 0) (afterShift c) :=
  nextBit_eq_ok.2 ⟨by omega, rfl, .inl ⟨by omega, rfl⟩⟩

/-- The last bit of a word is delivered with the next word, low byte first, already loaded (20_memory.md R31). -/
theorem nextBit_of_refill {c : Source} {lo hi : Byte} (hcnt : c.cnt = 1) (hlen : c.ip + 2 ≤ c.inLen)
    (hlo : c.inp.read c.ip = some lo) (hhi : c.inp.read (c.ip + 1) = some hi) :
    nextBit c = .ok (c.cw.getLsbD 0)
      { c with ip := c.ip + 2, cw := BitVec.ofNat 16 (256 * hi.toNat + lo.toNat), cnt := 16 } := by
  have hload : loadCw (afterShift c) =
      .ok () { c with ip := c.ip + 2, cw := BitVec.ofNat 16 (256 * hi.toNat + lo.toNat), cnt := 16 } :=
    loadCw_eq_ok.2 ⟨hlen, lo, hi, hlo, hhi, by rw [pair_eq_ofNat]; rfl⟩
  exact nextBit_eq_ok.2 ⟨by omega, rfl, .inr ⟨hcnt, hload⟩⟩

/-- The last bit of a word is lost when the next word is not there: the shift has been made, the bit is not delivered. -/
theorem nextBit_of_short {c : Source} (hcnt : c.cnt = 1) (hlen : c.inLen < c.ip + 2) :
    nextBit c = .truncated (afterShift c) :=
  nextBit_eq_truncated.2 ⟨hcnt, loadCw_eq_truncated.2 ⟨hlen, rfl⟩⟩

/-- The shift that takes the last bit of a word leaves no bit to read. -/
theorem afterShift_of_cnt_eq_one {c : Source} (hcnt : c.cnt = 1) :
    afterShift c = { c with cnt := 0, cw := c.cw >>> 1 } := by
  rw [afterShift, hcnt]

/-- Settles O10: bits left, a refill that succeeds and a refill that fails are the three cases of NEXTBIT. -/
theorem nextBitRefillsBeforeItDelivers : Obligations.NextBitRefillsBeforeItDelivers := by
  refine fun c => ⟨nextBit_of_two_le, fun hcnt lo hi hlen hlo hhi => ?refill, fun hcnt hlen => ?short⟩
  case refill => exact nextBit_of_refill hcnt hlen hlo hhi
  case short => rw [nextBit_of_short hcnt hlen, afterShift_of_cnt_eq_one hcnt]

end Sys2Proof

/-! The start index of a back-reference and its bounds check (42_output_engine.md R75, R76), and the obligation about them. -/

namespace Sys2Proof.Machine

/-- No 16-bit pattern lies further below zero than this. -/
theorem le_asI16 (v : Half) : -32768 ≤ asI16 v := BitVec.le_toInt v

/-- The start index is the integer sum reduced modulo 65536, whichever sign `offset` has (70_reset_and_hazards.md R100). -/
theorem startIndex_toNat_eq_emod (olen : Nat) (offset : Half) :
    ((startIndex olen offset).toNat : Int) = (olen + asI16 offset) % 65536 := by
  have hsum : (startIndex olen offset).toNat = (olen + offset.toNat) % 65536 := by
    simp [startIndex, BitVec.toNat_add]
  have hoffset : asI16 offset = offset.toNat ∨ asI16 offset = offset.toNat - 65536 := by
    rw [asI16, BitVec.toInt_eq_toNat_cond]
    split <;> simp
  omega

/-- A displacement that stays inside the output does not wrap. -/
theorem startIndex_exact {olen : Nat} {offset : Half} (hlen : olen ≤ 65535) (hneg : asI16 offset < 0)
    (hin : -(asI16 offset) ≤ olen) : ((startIndex olen offset).toNat : Int) = olen + asI16 offset := by
  rw [startIndex_toNat_eq_emod]
  exact Int.emod_eq_of_lt (by omega) (by omega)

/-- A displacement that reaches before the output wraps once: it is at most 32768. -/
theorem startIndex_wrapped {olen : Nat} {offset : Half} (hout : (olen : Int) < -(asI16 offset)) :
    ((startIndex olen offset).toNat : Int) = 65536 + olen + asI16 offset := by
  have hlow := le_asI16 offset
  have := startIndex_toNat_eq_emod olen offset
  omega

theorem startInvalid_eq_false_iff {start : Half} {olen : Nat} : startInvalid start olen = false ↔ start.toNat < olen := by
  simp [startInvalid]

theorem startInvalid_eq_true_iff {start : Half} {olen : Nat} : startInvalid start olen = true ↔ olen ≤ start.toNat := by
  simp [startInvalid]

/-- Settles O31: a negative displacement stays below `olen` when the sum is exact; when it wraps, 65536 outweighs the
displacement and the start index is at least `olen`. -/
theorem startIndexWrapsAtSixteenBits : Obligations.StartIndexWrapsAtSixteenBits := by
  refine fun olen offset hlen hneg => ⟨fun hin => ?exact, fun hout => ?wrapped⟩
  case exact =>
    have hstart := startIndex_exact hlen hneg hin
    exact ⟨hstart, startInvalid_eq_false_iff.2 (by omega)⟩
  case wrapped =>
    have hstart := startIndex_wrapped hout
    have hlow := le_asI16 offset
    exact ⟨hstart, startInvalid_eq_true_iff.2 (by omega)⟩

end Sys2Proof.Machine

/-! What a back-reference copies where it stays inside the output (42_output_engine.md R75 to R77), what the output-size check does
behind it (R79), and the obligation about tokens that pass the ceiling. -/

namespace Sys2Proof.Machine

open Sys2Proof.Claims

/-! ### The offset and the length of a reference -/

/-- An offset whose high byte is 0x80 or more is negative, and 65536 below the number its two bytes make (00_scope.md R12). -/
theorem asI16_offsetOf {h l : Byte} (hneg : 128 ≤ h.toNat) :
    asI16 (offsetOf h l) = 256 * h.toNat + l.toNat - 65536 := by
  have hh := h.isLt
  have hl := l.isLt
  have hvalue : (offsetOf h l).toNat = 256 * h.toNat + l.toNat := by
    rw [offsetOf, pair_eq_ofNat, BitVec.toNat_ofNat]
    omega
  rw [asI16, BitVec.toInt_eq_toNat_cond, if_neg (by omega), hvalue]
  omega

theorem mrefHigh_toNat : ∀ h : BitVec 3, (mrefHigh h).toNat = 247 + h.toNat := by decide

/-- The 8-bit arithmetic of 41_tokens.md R71 gives the high bytes of 30_encoding.md Table 2. -/
theorem offhHigh_toNat (o : OffhCode) : (offhHigh o).toNat = tableHigh o := by
  cases o with
  | oh2 a => revert a; decide
  | oh3 a => revert a; decide
  | oh5 a b => revert a b; decide
  | oh7 a b c => revert a b c; decide
  | oh8 a b c d => revert a b c d; decide

theorem le_tableHigh (o : OffhCode) : 0xE0 ≤ tableHigh o := by
  cases o <;> simp only [tableHigh] <;> omega

/-- The 16-bit arithmetic of 41_tokens.md R72 gives the lengths of 30_encoding.md Table 3. -/
theorem lenValue_toNat (n : LenCode) : (lenValue n).toNat = tableLength n := by
  cases n with
  | l3 | l4 | l5 | l6 => rfl
  | l7 b => cases b <;> rfl
  | l17 v =>
    have := v.isLt
    have : (0x11 : Half).toNat = 17 := rfl
    simp only [lenValue, tableLength, BitVec.toNat_add, BitVec.toNat_setWidth]
    omega
  | l9 b => revert b; decide

/-- A reference's own displacement is never 0: every `offset` is negative (30_encoding.md R57). -/
theorem distance_pos {i : Instr} (hi : isReference i = true) : 0 < distance i := by
  cases i with
  | sref l => have := l.isLt; simp only [distance]; omega
  | mref l h => have := l.isLt; have := h.isLt; simp only [distance]; omega
  | bref l o n =>
    have := l.isLt
    have : tableHigh o < 256 := offhHigh_toNat o ▸ (offhHigh o).isLt
    simp only [distance]
    omega
  | _ => simp [isReference] at hi

/-- Executing a reference is executing a back-reference by its displacement and its length (30_encoding.md R52), from a state
that differs in the temporaries alone: BREF has its parts there. -/
theorem exec_reference {i : Instr} (hi : isReference i = true) (s : State) :
    ∃ (offset length : Half) (temps : Temps), exec i s = execBackReference offset length { s with temps := temps } ∧
      asI16 offset = -(distance i : Int) ∧ length.toNat = copyLength i := by
  have hpos := distance_pos hi
  cases i with
  | sref l =>
    refine ⟨offsetOf 0xFF l, shortLength, s.temps, rfl, ?_, rfl⟩
    rw [asI16_offsetOf (by decide)]
    have : (0xFF : Byte).toNat = 255 := rfl
    simp only [distance] at hpos ⊢
    omega
  | mref l h =>
    refine ⟨offsetOf (mrefHigh h) l, shortLength, s.temps, rfl, ?_, rfl⟩
    rw [asI16_offsetOf (by rw [mrefHigh_toNat]; omega), mrefHigh_toNat]
    simp only [distance] at hpos ⊢
    omega
  | bref l o n =>
    refine ⟨offsetOf (offhHigh o) l, lenValue n, _, rfl, ?_, lenValue_toNat n⟩
    have hhigh := le_tableHigh o
    rw [asI16_offsetOf (by rw [offhHigh_toNat]; omega), offhHigh_toNat]
    simp only [distance] at hpos ⊢
    omega
  | _ => simp [isReference] at hi

/-! ### The copy of a reference that stays inside the output -/

/-- A copy that begins `d` bytes back repeats the last `d` bytes: past the first `d`, it reads its own bytes (R77). -/
theorem copy_repeatsLast {d n : Nat} {s t : State} (hd : 0 < d) (hin : d ≤ s.olen)
    (h : copy n (s.olen - d) s = .next t) : RepeatsLast d n s t := by
  obtain ⟨-, -, -, -, -, -, -, hold⟩ := copy_frame h
  intro j
  induction j using Nat.strong_induction_on with
  | _ j ih =>
    intro hj
    rw [copy_bytes h (by omega) j hj]
    by_cases hjd : j < d
    case pos => rw [Nat.mod_eq_of_lt hjd, hold _ (by omega)]
    case neg =>
      have hback : s.olen - d + j = s.olen + (j - d) := by omega
      rw [hback, ih (j - d) (by omega) (by omega), Nat.mod_eq_sub_mod (by omega : d ≤ j)]

/-- A reference in range appends its copy to a whole output and then meets the size check. -/
theorem exec_reference_in_range {i : Instr} {s : State} (hi : isReference i = true) (hs : s.outputOk)
    (hlen : s.olen ≤ 65535) (hin : distance i ≤ s.olen) :
    ∃ u, exec i s = .next (endStep (sizeCheck u)) ∧ RepeatsLast (distance i) (copyLength i) s u ∧
      Appended (copyLength i) s u ∧ JobGoesOn s u ∧
      u.src = s.src ∧ u.errOffset = s.errOffset ∧ u.errStart = s.errStart := by
  obtain ⟨offset, length, temps, hexec, hoffset, hlength⟩ := exec_reference hi s
  have hpos := distance_pos hi
  have hstart : (startIndex s.olen offset).toNat = s.olen - distance i := by
    have := startIndex_exact (offset := offset) hlen (by omega) (by omega)
    omega
  obtain ⟨u, hcopy, -⟩ := copy_completes (copyLength i) (s.olen - distance i) { s with temps := temps } hs
    (Nat.sub_lt_self hpos hin)
  obtain ⟨hsrc, hstatus, hcause, herrOffset, herrStart, -, holen, hold⟩ := copy_frame hcopy
  have hrepeats : RepeatsLast (distance i) (copyLength i) s u :=
    copy_repeatsLast (s := { s with temps := temps }) hpos hin hcopy
  refine ⟨u, ?_, hrepeats, ⟨holen, hold⟩, ⟨hstatus, hcause⟩, hsrc, herrOffset, herrStart⟩
  rw [hexec]
  refine execBackReference_valid ?_ ?_
  · rw [hstart]; exact Nat.sub_lt_self hpos hin
  · rw [hstart, hlength]; exact hcopy

/-! ### LIT -/

theorem exec_lit (v : Byte) (s : State) : exec (.lit v) s = .next (endStep (sizeCheck (outAppend v s))) := rfl

theorem outAppend_appended (v : Byte) (s : State) : Appended 1 s (outAppend v s) :=
  ⟨rfl, fun _ ha => Memory.read_write_of_ne _ _ _ _ (by omega)⟩

/-! ### The output-size check -/

theorem sizeCheck_of_exceeded {s : State} (h : 65535 < s.olen) : sizeCheck s = raiseError .outputSizeOverflow s := by
  obtain ⟨hle, -⟩ | ⟨-, heq⟩ := sizeCheck_cases s
  · exact absurd h (Nat.not_lt.2 hle)
  · exact heq

/-- Settles O23: the size check stands behind the whole append or copy and leaves the output as it finds it, so what is shown
of the output before the check holds after the error too (60_exceptions.md R87). -/
theorem tokensPastTheCeilingRaiseOverflow : Obligations.TokensPastTheCeilingRaiseOverflow := by
  refine ⟨fun v s hfull => ?lit, fun i s hi hs hlen hin hover => ?reference⟩
  case lit =>
    have hcheck := sizeCheck_of_exceeded (s := outAppend v s) (by rw [outAppend_olen]; omega)
    exact ⟨endStep (raiseError .outputSizeOverflow (outAppend v s)), by rw [exec_lit, hcheck], rfl, rfl,
      Memory.read_write_same _ _ _, outAppend_appended v s, rfl, rfl, rfl, rfl⟩
  case reference =>
    obtain ⟨u, hexec, hrepeats, ⟨holen, hold⟩, -, hsrc, herrOffset, herrStart⟩ :=
      exec_reference_in_range hi hs hlen hin
    have hcheck := sizeCheck_of_exceeded (s := u) (hover.trans_eq holen.symm)
    exact ⟨endStep (raiseError .outputSizeOverflow u), by rw [hexec, hcheck], rfl, rfl, hrepeats, ⟨holen, hold⟩,
      hsrc, herrOffset, herrStart, rfl⟩

end Sys2Proof.Machine

/-! How a source delivers the items it carries (30_encoding.md R44, R46), and the obligations that decode and encode agree in a
stream and for a whole program. -/

namespace Sys2Proof

open Sys2Proof.Machine Sys2Proof.Claims

/-! ### Command words and their bits -/

theorem wordOf_cons (b : Bool) (bs : List Bool) : wordOf (b :: bs) = (wordOf bs <<< 1) ||| (if b then 1 else 0) := rfl

/-- The first consumed bit is the lowest (20_memory.md R32). -/
theorem wordOf_cons_lowest (b : Bool) (bs : List Bool) : (wordOf (b :: bs)).getLsbD 0 = b := by
  rw [wordOf_cons]
  cases b <;> simp

/-- As long as a place is free, one more first bit doubles the word and adds itself. -/
theorem wordOf_cons_toNat {bs : List Bool} (h : (wordOf bs).toNat < 2 ^ 15) (b : Bool) :
    (wordOf (b :: bs)).toNat = 2 * (wordOf bs).toNat + bitNat b := by
  have hbit : (if b then 1 else 0 : Half).toNat = bitNat b := by cases b <;> rfl
  have hlt : bitNat b < 2 ^ 1 := by cases b <;> decide
  rw [wordOf_cons, BitVec.toNat_or, BitVec.toNat_shiftLeft, hbit, Nat.shiftLeft_eq, Nat.mod_eq_of_lt (by omega),
    Nat.mul_comm, ← Nat.two_pow_add_eq_or_of_lt hlt, pow_one]

/-- A word of `n` bits is below `2 ^ n`: the bits that are not given are 0. -/
theorem wordOf_toNat_lt {bs : List Bool} (h : bs.length ≤ 16) : (wordOf bs).toNat < 2 ^ bs.length := by
  induction bs with
  | nil => simp [wordOf]
  | cons b bs ih =>
    rw [List.length_cons] at h ⊢
    have hrest := ih (by omega)
    have hpow : 2 ^ bs.length ≤ 2 ^ 15 := Nat.pow_le_pow_right (by omega) (by omega)
    have hbit : bitNat b ≤ 1 := by cases b <;> decide
    rw [wordOf_cons_toNat (by omega), pow_succ]
    omega

/-- NEXTBIT's shift leaves the word of the remaining bits (40_bit_source.md R61). -/
theorem wordOf_cons_shift {b : Bool} {bs : List Bool} (h : bs.length ≤ 15) : wordOf (b :: bs) >>> 1 = wordOf bs := by
  have hlt := wordOf_toNat_lt (bs := bs) (by omega)
  have hpow : 2 ^ bs.length ≤ 2 ^ 15 := Nat.pow_le_pow_right (by omega) h
  have hbit : bitNat b ≤ 1 := by cases b <;> decide
  apply BitVec.eq_of_toNat_eq
  rw [BitVec.toNat_ushiftRight, Nat.shiftRight_eq_div_pow, wordOf_cons_toNat (by omega)]
  omega

/-- A word stored low byte first is the word LOADCW makes of its two bytes (20_memory.md R31). -/
theorem pair_wordBytes (w : Half) : pair (w.extractLsb' 8 8) (w.extractLsb' 0 8) = w := by
  apply BitVec.eq_of_toNat_eq
  have := w.isLt
  simp only [pair_eq_ofNat, BitVec.toNat_ofNat, BitVec.extractLsb'_toNat, Nat.shiftRight_eq_div_pow]
  omega

/-! ### Placing items -/

@[simp] theorem place_nil (n : Nat) : place [] n = ([], []) := rfl

@[simp] theorem place_byte (v : Byte) (its : List Item) (n : Nat) :
    place (.byte v :: its) n = ((place its n).1, v :: (place its n).2) := rfl

/-- The bit that takes the last free place of a word is followed by the next word (30_encoding.md R44). -/
theorem place_bit_last (b : Bool) (its : List Item) :
    place (.bit b :: its) 1 = ([b], wordBytes (wordOf (place its 16).1) ++ (place its 16).2) := rfl

theorem place_bit {n : Nat} (h : n ≠ 1) (b : Bool) (its : List Item) :
    place (.bit b :: its) n = (b :: (place its (n - 1)).1, (place its (n - 1)).2) := by
  rw [place, if_neg h]

/-- No more bits are placed in a word than are free in it. -/
theorem length_place_le (its : List Item) {n : Nat} (h : 1 ≤ n) : (place its n).1.length ≤ n := by
  induction its generalizing n with
  | nil => simp
  | cons it its ih =>
    cases it with
    | byte v => simpa using ih h
    | bit b =>
      by_cases hn : n = 1
      case pos => rw [hn, place_bit_last, List.length_singleton]
      case neg =>
        have := ih (n := n - 1) (by omega)
        rw [place_bit hn, List.length_cons]
        omega

/-! ### A source that carries items -/

/-- Where the input of a source that carries items ends: right behind the bytes placed for them. -/
def Source.endOf (c : Source) (its : List Item) : Nat := c.ip + (place its c.cnt).2.length

/-- A source moves from the items it carries to those that are left: it carries them in the same input, and the end of its input
stays where it was. -/
structure Source.Delivers (c : Source) (its : List Item) (c' : Source) (rest : List Item) : Prop where
  carries : Carries c' rest
  inp : c'.inp = c.inp
  inLen : c'.inLen = c.inLen
  endOf : c'.endOf rest = c.endOf its

theorem Source.Delivers.refl {c : Source} {its : List Item} (h : Carries c its) : c.Delivers its c its := ⟨h, rfl, rfl, rfl⟩

theorem Source.Delivers.trans {a b c : Source} {is js ks : List Item} (h : a.Delivers is b js) (k : b.Delivers js c ks) :
    a.Delivers is c ks :=
  ⟨k.carries, k.inp.trans h.inp, k.inLen.trans h.inLen, k.endOf.trans h.endOf⟩

/-- A raw byte that comes next is read by InByte. -/
theorem inByte_of_carries {c : Source} {v : Byte} {its : List Item} (h : Carries c (.byte v :: its)) :
    ∃ c', inByte c = .ok v c' ∧ c.Delivers (.byte v :: its) c' its := by
  obtain ⟨h1, h16, hcw, hbytes⟩ := h
  obtain ⟨hlen, hread⟩ := hbytes 0 v rfl
  refine ⟨{ c with ip := c.ip + 1 }, inByte_eq_ok.2 ⟨hlen, hread, rfl⟩,
    ⟨h1, h16, hcw, fun k b hk => ?_⟩, rfl, rfl, ?_⟩
  · have := hbytes (k + 1) b hk
    rwa [Nat.add_comm k, ← Nat.add_assoc] at this
  · simp only [Source.endOf, place_byte, List.length_cons]
    omega

/-- A command bit that comes next is read by NEXTBIT, whose refill is due exactly where the next word was placed
(30_encoding.md R44, 40_bit_source.md R61). -/
theorem nextBit_of_carries {c : Source} {b : Bool} {its : List Item} (h : Carries c (.bit b :: its)) :
    ∃ c', nextBit c = .ok b c' ∧ c.Delivers (.bit b :: its) c' its := by
  obtain ⟨h1, h16, hcw, hbytes⟩ := h
  by_cases hcnt : c.cnt = 1
  case pos =>
    rw [hcnt, place_bit_last] at hcw hbytes
    obtain ⟨-, hlo⟩ := hbytes 0 _ rfl
    obtain ⟨hlen, hhi⟩ := hbytes 1 _ rfl
    have hread := nextBit_of_refill hcnt hlen hlo hhi
    rw [← pair_eq_ofNat, pair_wordBytes, hcw, wordOf_cons_lowest] at hread
    refine ⟨_, hread, ⟨Nat.le_add_left 1 15, le_refl 16, rfl, fun k v hk => ?_⟩, rfl, rfl, ?_⟩
    · have := hbytes (k + 2) v hk
      rwa [Nat.add_comm k, ← Nat.add_assoc] at this
    · simp only [Source.endOf, hcnt, place_bit_last, wordBytes, List.length_append, List.length_cons, List.length_nil]
      omega
  case neg =>
    rw [place_bit hcnt] at hcw hbytes
    have hfree := length_place_le its (n := c.cnt - 1) (by omega)
    have hread := nextBit_of_two_le (c := c) (by omega)
    rw [hcw, wordOf_cons_lowest] at hread
    refine ⟨_, hread, ⟨?_, ?_, ?_, hbytes⟩, rfl, rfl, ?_⟩
    · simp only [afterShift]; omega
    · simp only [afterShift]; omega
    · simp only [afterShift, hcw]; exact wordOf_cons_shift (by omega)
    · simp only [Source.endOf, afterShift, place_bit hcnt]

/-- Walking a tree over items and over a source that carries them is the same. -/
theorem run_of_runItems {α : Type} {t : Reader α} {its rest : List Item} {v : α} (h : t.runItems its = some (v, rest))
    {c : Source} (hc : Carries c its) : ∃ c', t.run c = .ok v c' ∧ c.Delivers its c' rest := by
  induction t generalizing its c with
  | done w =>
    rw [Reader.runItems_done, Option.some.injEq, Prod.mk.injEq] at h
    obtain ⟨rfl, rfl⟩ := h
    exact ⟨c, rfl, .refl hc⟩
  | bit k ih =>
    match its, h with
    | .bit b :: its, h =>
      obtain ⟨c1, hbit, hdel⟩ := nextBit_of_carries hc
      obtain ⟨c', hrun, hdel'⟩ := ih b h hdel.carries
      exact ⟨c', by rw [Reader.run_bit, hbit, ReadResult.bind_ok, hrun], hdel.trans hdel'⟩
  | byte k ih =>
    match its, h with
    | .byte b :: its, h =>
      obtain ⟨c1, hbyte, hdel⟩ := inByte_of_carries hc
      obtain ⟨c', hrun, hdel'⟩ := ih b h hdel.carries
      exact ⟨c', by rw [Reader.run_byte, hbyte, ReadResult.bind_ok, hrun], hdel.trans hdel'⟩

/-! ### The round trip -/

/-- Every instruction's encoding is read back by the tree of its stage. -/
theorem itemRoundTrip (i : Instr) : Laws.ItemRoundTrip.Statement i :=
  match i with
  | .lit v => Laws.ItemRoundTrip.lit v
  | .eof => Laws.ItemRoundTrip.eof
  | .sref l => Laws.ItemRoundTrip.sref l
  | .mref l h => Laws.ItemRoundTrip.mref l h
  | .bref l o n => Laws.ItemRoundTrip.bref l o n
  | .oh2 a => Laws.ItemRoundTrip.oh2 a
  | .oh3 a => Laws.ItemRoundTrip.oh3 a
  | .oh5 a b => Laws.ItemRoundTrip.oh5 a b
  | .oh7 a b c => Laws.ItemRoundTrip.oh7 a b c
  | .oh8 a b c d => Laws.ItemRoundTrip.oh8 a b c d
  | .l3 => Laws.ItemRoundTrip.l3
  | .l4 => Laws.ItemRoundTrip.l4
  | .l5 => Laws.ItemRoundTrip.l5
  | .l6 => Laws.ItemRoundTrip.l6
  | .l7 b => Laws.ItemRoundTrip.l7 b
  | .l17 v => Laws.ItemRoundTrip.l17 v
  | .l9 b => Laws.ItemRoundTrip.l9 b

/-- The decoder of an instruction's stage reads its encoding off any source that carries it. -/
theorem run_encode {i : Instr} {t : Reader Instr} {rest : List Item} {c : Source} (hi : i.wf = true)
    (ht : treeAt i.stage = some t) (hc : Carries c (encode i ++ rest)) :
    ∃ c', t.run c = .ok i c' ∧ c.Delivers (encode i ++ rest) c' rest := by
  obtain ⟨t', ht', hitems⟩ := itemRoundTrip i hi rest
  obtain rfl : t' = t := Option.some.inj (ht'.symm.trans ht)
  exact run_of_runItems hitems hc

/-- Settles O32: the items are read back without command words (`itemRoundTrip`), and a source delivers the items it carries
one by one, refills included (`run_of_runItems`). -/
theorem decodingUndoesEncodingInTheStream : Obligations.DecodingUndoesEncodingInTheStream := by
  intro i t rest c hi ht hc
  obtain ⟨c', hrun, hdel⟩ := run_encode hi ht hc
  exact ⟨c', hrun, hdel.carries, hdel.inp, hdel.inLen⟩

/-! ### Programs -/

theorem treeAt_of_isToken {i : Instr} (hi : i.isToken = true) : treeAt i.stage = some readToken := by
  rw [show i.stage = .token by simpa [Instr.isToken] using hi]
  rfl

theorem decodeTokens_succ {c c' : Source} {i : Instr} (h : decodeToken c = .ok i c') (n : Nat) :
    decodeTokens (n + 1) c = (decodeTokens n c').map fun p => (i :: p.1, p.2) := by
  rw [decodeTokens, h]

/-- One decode per token reads a program off a source that carries it. -/
theorem decodeTokens_of_carries {p : List Instr} (hp : ∀ i ∈ p, i.wf = true ∧ i.isToken = true) {c : Source}
    {rest : List Item} (hc : Carries c (p.flatMap encode ++ rest)) :
    ∃ c', decodeTokens p.length c = some (p, c') ∧ c.Delivers (p.flatMap encode ++ rest) c' rest := by
  induction p generalizing c with
  | nil => exact ⟨c, rfl, .refl hc⟩
  | cons i p ih =>
    rw [List.flatMap_cons, List.append_assoc] at hc ⊢
    obtain ⟨hwf, htoken⟩ := hp i List.mem_cons_self
    obtain ⟨c1, hrun, hdel⟩ := run_encode hwf (treeAt_of_isToken htoken) hc
    obtain ⟨c', htokens, hdel'⟩ := ih (fun j hj => hp j (List.mem_cons_of_mem i hj)) hdel.carries
    refine ⟨c', ?_, hdel.trans hdel'⟩
    rw [List.length_cons, decodeTokens_succ hrun, htokens, Option.map_some]

/-- The source right behind START's LOADCW on an input that begins with `lo` and `hi`. -/
def firstWord (lo hi : Byte) (bytes : List Byte) : Source :=
  { inp := Memory.ofBytes bytes, inLen := bytes.length, ip := 2, cw := pair hi lo, cnt := 16 }

@[simp] theorem firstWord_cnt (lo hi : Byte) (bytes : List Byte) : (firstWord lo hi bytes).cnt = 16 := rfl

/-- LOADCW at the beginning of an input of two bytes or more, whatever the command word was. -/
theorem loadCw_at_zero (lo hi : Byte) (bs : List Byte) (w : Half) (n : Nat) :
    loadCw { inp := Memory.ofBytes (lo :: hi :: bs), inLen := (lo :: hi :: bs).length, ip := 0, cw := w, cnt := n } =
      .ok () (firstWord lo hi (lo :: hi :: bs)) :=
  loadCw_eq_ok.2 ⟨Nat.le_add_left 2 _, lo, hi, by simp, by simp, rfl⟩

/-- START's source on an input of two bytes or more: the first two are the command word, low byte first. -/
theorem sourceOn_cons_cons (lo hi : Byte) (bs : List Byte) :
    sourceOn (lo :: hi :: bs) = .ok (firstWord lo hi (lo :: hi :: bs)) (firstWord lo hi (lo :: hi :: bs)) := by
  rw [sourceOn, loadCw_at_zero, ReadResult.bind_ok]

/-- A first word of placed bits, with the placed bytes behind it, carries the items. -/
theorem carries_firstWord {its : List Item} {lo hi : Byte} (trailing : List Byte) (hword : pair hi lo = wordOf (place its 16).1) :
    Carries (firstWord lo hi (lo :: hi :: ((place its 16).2 ++ trailing))) its := by
  refine ⟨Nat.le_add_left 1 15, le_refl 16, hword, fun k b hk => ?_⟩
  rw [firstWord_cnt] at hk
  obtain ⟨hlt, -⟩ := List.getElem?_eq_some_iff.1 hk
  simp only [firstWord]
  constructor
  · rw [List.length_cons, List.length_cons, List.length_append]
    omega
  · rw [Memory.read_ofBytes, Nat.add_comm 2 k, List.getElem?_cons_succ, List.getElem?_cons_succ,
      List.getElem?_append_left hlt, hk]

/-- START's source on an assembled stream carries the stream's items, up to the end of the assembly. -/
theorem sourceOn_assembleItems (its : List Item) (trailing : List Byte) :
    ∃ c, sourceOn (assembleItems its ++ trailing) = .ok c c ∧ Carries c its ∧
      c.endOf its = (assembleItems its).length := by
  refine ⟨_, sourceOn_cons_cons _ _ ((place its 16).2 ++ trailing), carries_firstWord trailing (pair_wordBytes _), ?_⟩
  rw [Source.endOf, firstWord_cnt, assembleItems, List.length_append]
  rfl

/-- Settles O33, by induction on the program: START's source carries the assembly, each decode takes one token off it, and the end
of the carried items, which no decode moves, is the end of the assembly. -/
theorem assembledProgramsDecodeToThemselves : Obligations.AssembledProgramsDecodeToThemselves := by
  intro p trailing hp
  obtain ⟨c, hstart, hc, hend⟩ := sourceOn_assembleItems (p.flatMap encode) trailing
  obtain ⟨c', htokens, hdel⟩ := decodeTokens_of_carries (rest := []) hp (by rwa [List.append_nil])
  refine ⟨c, c', hstart, htokens, ?_⟩
  have hstop : c'.ip = c'.endOf [] := rfl
  rw [hstop, hdel.endOf, List.append_nil, hend, assemble]

end Sys2Proof

/-! What a decode tree takes off a list of items and off a source (30_encoding.md R46, R54, R55; 41_tokens.md R73), and the
obligations about the code. -/

namespace Sys2Proof

open Sys2Proof.Machine Sys2Proof.Claims

/-! ### Items: whatever a tree reads is an encoding -/

theorem runItems_done_eq_some {α : Type} {v w : α} {its rest : List Item} :
    (Reader.done v).runItems its = some (w, rest) ↔ v = w ∧ its = rest := by
  rw [Reader.runItems_done, Option.some.injEq, Prod.mk.injEq]

/-- Any three bits are the field of some value. -/
theorem exists_fieldItems (b2 b1 b0 : Bool) : ∃ v : BitVec 3, fieldItems v 3 = [.bit b2, .bit b1, .bit b0] ∧
    v.toNat = 2 * (2 * (2 * 0 + bitNat b2) + bitNat b1) + bitNat b0 := by
  revert b2 b1 b0; decide

/-- The items of a 3-bit field are those of the value read. -/
theorem items_of_field {α : Type} {k : BitVec 3 → Reader α} {its : List Item} {r : α × List Item}
    (h : (Reader.field 3 0 fun v => k (BitVec.ofNat 3 v)).runItems its = some r) :
    ∃ v rest, its = fieldItems v 3 ++ rest ∧ (k v).runItems rest = some r :=
  match its, h with
  | .bit b2 :: .bit b1 :: .bit b0 :: rest, h => by
    obtain ⟨v, hitems, hv⟩ := exists_fieldItems b2 b1 b0
    refine ⟨v, rest, by rw [hitems]; rfl, ?_⟩
    rwa [Reader.field, Reader.runItems_bit, Reader.field, Reader.runItems_bit, Reader.field, Reader.runItems_bit,
      Reader.field, ← hv, BitVec.ofNat_toNat, BitVec.setWidth_eq] at h

/-- The items of an offset-high sub-code are those of Table 2. -/
theorem items_of_readOffh {α : Type} {k : OffhCode → Reader α} {its : List Item} {r : α × List Item}
    (h : (readOffh k).runItems its = some r) :
    ∃ o rest, its = encodeOffh o ++ rest ∧ (k o).runItems rest = some r :=
  match its, h with
  | .bit a :: .bit true :: rest, h => ⟨.oh2 a, rest, rfl, h⟩
  | .bit a :: .bit false :: .bit true :: rest, h => ⟨.oh3 a, rest, rfl, h⟩
  | .bit a :: .bit false :: .bit false :: .bit b :: .bit true :: rest, h => ⟨.oh5 a b, rest, rfl, h⟩
  | .bit a :: .bit false :: .bit false :: .bit b :: .bit false :: .bit c :: .bit true :: rest, h =>
    ⟨.oh7 a b c, rest, rfl, h⟩
  | .bit a :: .bit false :: .bit false :: .bit b :: .bit false :: .bit c :: .bit false :: .bit d :: rest, h =>
    ⟨.oh8 a b c d, rest, rfl, h⟩

/-- The items of a length sub-code are those of Table 3. -/
theorem items_of_readLen {α : Type} {k : LenCode → Reader α} {its : List Item} {r : α × List Item}
    (h : (readLen k).runItems its = some r) :
    ∃ n rest, its = encodeLen n ++ rest ∧ (k n).runItems rest = some r :=
  match its, h with
  | .bit true :: rest, h => ⟨.l3, rest, rfl, h⟩
  | .bit false :: .bit true :: rest, h => ⟨.l4, rest, rfl, h⟩
  | .bit false :: .bit false :: .bit true :: rest, h => ⟨.l5, rest, rfl, h⟩
  | .bit false :: .bit false :: .bit false :: .bit true :: rest, h => ⟨.l6, rest, rfl, h⟩
  | .bit false :: .bit false :: .bit false :: .bit false :: .bit true :: .bit b :: rest, h => ⟨.l7 b, rest, rfl, h⟩
  | .bit false :: .bit false :: .bit false :: .bit false :: .bit false :: .bit true :: .byte v :: rest, h =>
    ⟨.l17 v, rest, rfl, h⟩
  | .bit false :: .bit false :: .bit false :: .bit false :: .bit false :: .bit false :: its, h => by
    obtain ⟨v, rest, rfl, hrest⟩ := items_of_field (k := fun v => k (.l9 v)) h
    exact ⟨.l9 v, rest, rfl, hrest⟩

/-- Behind the two flags and `offset_l` of a small reference, the last flag tells MREF from EOF and SREF (41_tokens.md R65). -/
theorem items_of_smallReference {l : Byte} {its rest : List Item} {i : Instr}
    (h : readToken.runItems (.bit false :: .bit false :: .byte l :: its) = some (i, rest)) :
    i.wf = true ∧ i.stage = .token ∧ .bit false :: .bit false :: .byte l :: its = encode i ++ rest :=
  match its, h with
  | .bit true :: its, h => by
    obtain ⟨v, its, rfl, hdone⟩ := items_of_field (k := fun v => .done (Instr.mref l v)) (r := (i, rest)) h
    obtain ⟨rfl, rfl⟩ := runItems_done_eq_some.1 hdone
    exact ⟨rfl, rfl, rfl⟩
  | .bit false :: its, h => by
    have hread : (if l = 0xFF then Reader.done .eof else .done (.sref l)).runItems its = some (i, rest) := h
    split at hread
    · rename_i hl
      obtain ⟨rfl, rfl⟩ := runItems_done_eq_some.1 hread
      exact ⟨rfl, rfl, by rw [hl]; rfl⟩
    · rename_i hl
      obtain ⟨rfl, rfl⟩ := runItems_done_eq_some.1 hread
      exact ⟨bne_iff_ne.2 hl, rfl, rfl⟩

/-- The items of a token are those of Table 1. -/
theorem items_of_readToken {its rest : List Item} {i : Instr} (h : readToken.runItems its = some (i, rest)) :
    i.wf = true ∧ i.stage = .token ∧ its = encode i ++ rest :=
  match its, h with
  | .bit true :: .byte v :: its, h => by
    have hdone : (Reader.done (Instr.lit v)).runItems its = some (i, rest) := h
    obtain ⟨rfl, rfl⟩ := runItems_done_eq_some.1 hdone
    exact ⟨rfl, rfl, rfl⟩
  | .bit false :: .bit true :: .byte l :: its, h => by
    obtain ⟨o, its, rfl, hlen⟩ := items_of_readOffh (k := fun o => readLen fun n => .done (Instr.bref l o n))
      (r := (i, rest)) h
    obtain ⟨n, its, rfl, hdone⟩ := items_of_readLen hlen
    obtain ⟨rfl, rfl⟩ := runItems_done_eq_some.1 hdone
    exact ⟨rfl, rfl, by simp [encode]⟩
  | .bit false :: .bit false :: .byte l :: its, h => items_of_smallReference h

theorem wf_ofOffh (o : OffhCode) : (Instr.ofOffh o).wf = true ∧ (Instr.ofOffh o).stage = .offh ∧
    encode (.ofOffh o) = encodeOffh o := by
  cases o <;> exact ⟨rfl, rfl, rfl⟩

theorem wf_ofLen (n : LenCode) : (Instr.ofLen n).wf = true ∧ (Instr.ofLen n).stage = .len ∧
    encode (.ofLen n) = encodeLen n := by
  cases n <;> exact ⟨rfl, rfl, rfl⟩

/-- Settles O34: each branch of a stage's tree is a row of Tables 1 to 3, so the items on it are that row's pattern. -/
theorem decodedItemsAreTheEncoding : Obligations.DecodedItemsAreTheEncoding := by
  intro g t its rest i ht h
  cases g with
  | token =>
    obtain rfl : readToken = t := Option.some.inj ht
    exact items_of_readToken h
  | offh =>
    obtain rfl : readOffh _ = t := Option.some.inj ht
    obtain ⟨o, its, rfl, hdone⟩ := items_of_readOffh h
    obtain ⟨rfl, rfl⟩ := runItems_done_eq_some.1 hdone
    obtain ⟨hwf, hstage, hencode⟩ := wf_ofOffh o
    exact ⟨hwf, hstage, by rw [hencode]⟩
  | len =>
    obtain rfl : readLen _ = t := Option.some.inj ht
    obtain ⟨n, its, rfl, hdone⟩ := items_of_readLen h
    obtain ⟨rfl, rfl⟩ := runItems_done_eq_some.1 hdone
    obtain ⟨hwf, hstage, hencode⟩ := wf_ofLen n
    exact ⟨hwf, hstage, by rw [hencode]⟩
  | resolve => exact absurd ht (by simp [treeAt])

/-! ### Sources: how far reading items moves them -/

theorem Source.Later.inp_eq {c c' : Source} (h : c.Later c') : c'.inp = c.inp := h.1

theorem Source.Later.inLen_eq {c c' : Source} (h : c.Later c') : c'.inLen = c.inLen := h.2.1

theorem Source.Later.cnt_le {c c' : Source} (h : c.Later c') (h16 : c.cnt ≤ 16) : c'.cnt ≤ 16 := h.2.2.2.2 h16

/-- Reading so many command bits and raw bytes from `c` leads to `c'`: each 16 bits bring in a word, two bytes more
(41_tokens.md R73, 10_state.md R15). -/
structure Source.Moved (c c' : Source) (bits bytes : Nat) : Prop where
  cnt_pos : 1 ≤ c'.cnt
  cnt_le : c'.cnt ≤ 16
  words : ∃ words, c'.ip = c.ip + bytes + 2 * words ∧ c.cnt + 16 * words = c'.cnt + bits

theorem Source.Moved.refl {c : Source} (h1 : 1 ≤ c.cnt) (h16 : c.cnt ≤ 16) : c.Moved c 0 0 := ⟨h1, h16, 0, rfl, rfl⟩

theorem Source.Moved.trans {a b c : Source} {m n p q : Nat} (h : a.Moved b m n) (k : b.Moved c p q) :
    a.Moved c (m + p) (n + q) := by
  obtain ⟨-, -, w, hip, hcnt⟩ := h
  obtain ⟨h1, h16, w', hip', hcnt'⟩ := k
  exact ⟨h1, h16, w + w', by omega, by omega⟩

/-- What is left of the word counts against the input position: a bit costs one bit of input, a raw byte eight. -/
theorem Source.Moved.cost {c c' : Source} {bits bytes : Nat} (h : c.Moved c' bits bytes) :
    8 * c'.ip + c.cnt = 8 * c.ip + c'.cnt + bits + 8 * bytes := by
  obtain ⟨-, -, w, hip, hcnt⟩ := h
  omega

theorem inByte_moved {c c' : Source} {v : Byte} (h : inByte c = .ok v c') (h1 : 1 ≤ c.cnt) (h16 : c.cnt ≤ 16) :
    c.Moved c' 0 1 := by
  obtain ⟨-, -, rfl⟩ := inByte_eq_ok.1 h
  exact ⟨h1, h16, 0, rfl, rfl⟩

theorem nextBit_moved {c c' : Source} {b : Bool} (h : nextBit c = .ok b c') (h1 : 1 ≤ c.cnt) (h16 : c.cnt ≤ 16) :
    c.Moved c' 1 0 := by
  by_cases hcnt : c.cnt = 1
  case pos =>
    obtain ⟨lo, hi, -, -, rfl⟩ := refill_of_nextBit h hcnt
    exact ⟨Nat.le_add_left 1 15, le_refl 16, 1, rfl, by rw [hcnt]⟩
  case neg =>
    obtain rfl := eq_afterShift_of_nextBit h (by omega)
    refine ⟨?_, ?_, 0, rfl, ?_⟩ <;> simp only [afterShift] <;> omega

/-- What a tree reads off a source is what it reads off some items, and the source has moved by as many. -/
theorem exists_items_of_run {α : Type} {t : Reader α} {c c' : Source} {v : α} (h : t.run c = .ok v c') (h1 : 1 ≤ c.cnt)
    (h16 : c.cnt ≤ 16) :
    ∃ its, t.runItems its = some (v, []) ∧ c.Moved c' (its.countP isCommandBit) (its.countP isRawByte) := by
  induction t generalizing c with
  | done w =>
    rw [Reader.run_done, ReadResult.ok.injEq] at h
    obtain ⟨rfl, rfl⟩ := h
    exact ⟨[], rfl, .refl h1 h16⟩
  | bit k ih =>
    obtain ⟨b, c1, hbit, h⟩ := ReadResult.bind_eq_ok.1 h
    have hmove := nextBit_moved hbit h1 h16
    obtain ⟨its, hits, hmove'⟩ := ih b h hmove.cnt_pos hmove.cnt_le
    refine ⟨.bit b :: its, hits, ?_⟩
    rw [List.countP_cons_of_pos rfl, List.countP_cons_of_neg Bool.false_ne_true, Nat.add_comm,
      ← Nat.zero_add (its.countP isRawByte)]
    exact hmove.trans hmove'
  | byte k ih =>
    obtain ⟨b, c1, hbyte, h⟩ := ReadResult.bind_eq_ok.1 h
    have hmove := inByte_moved hbyte h1 h16
    obtain ⟨its, hits, hmove'⟩ := ih b h hmove.cnt_pos hmove.cnt_le
    refine ⟨.byte b :: its, hits, ?_⟩
    rw [List.countP_cons_of_neg Bool.false_ne_true, List.countP_cons_of_pos rfl, Nat.add_comm,
      ← Nat.zero_add (its.countP isCommandBit)]
    exact hmove.trans hmove'

/-- What a stage's tree reads off a source is a well-formed instruction of that stage, and its encoding has been read. -/
theorem encode_of_run {g : Stage} {t : Reader Instr} {c c' : Source} {i : Instr} (ht : treeAt g = some t)
    (h : t.run c = .ok i c') (h1 : 1 ≤ c.cnt) (h16 : c.cnt ≤ 16) :
    i.wf = true ∧ i.stage = g ∧ c.Moved c' ((encode i).countP isCommandBit) ((encode i).countP isRawByte) := by
  obtain ⟨its, hits, hmove⟩ := exists_items_of_run h h1 h16
  obtain ⟨hwf, hstage, rfl⟩ := decodedItemsAreTheEncoding g t its [] i ht hits
  rw [List.append_nil] at hmove
  exact ⟨hwf, hstage, hmove⟩

/-! ### The sizes of the encodings -/

theorem countP_encodeOffh (o : OffhCode) : (encodeOffh o).countP isCommandBit = offhBits o ∧
    (encodeOffh o).countP isRawByte = 0 := by
  cases o <;> exact ⟨rfl, rfl⟩

theorem countP_encodeLen_isCommandBit (n : LenCode) : (encodeLen n).countP isCommandBit = lenBits n := by
  cases n <;> rfl

/-- Of the sub-codes only L17 takes a raw byte. -/
theorem countP_encodeLen_isRawByte (l : Byte) (o : OffhCode) (n : LenCode) :
    1 + (encodeLen n).countP isRawByte = tokenBytes (.bref l o n) := by
  cases n <;> rfl

/-- The items of a token's encoding, counted (41_tokens.md R73). -/
theorem countP_encode {i : Instr} (hi : i.isToken = true) :
    (encode i).countP isCommandBit = tokenBits i ∧ (encode i).countP isRawByte = tokenBytes i := by
  cases i with
  | lit | eof | sref | mref => exact ⟨rfl, rfl⟩
  | bref l o n =>
    obtain ⟨hbits, hbytes⟩ := countP_encodeOffh o
    rw [encode, List.countP_append, List.countP_append, List.countP_append, List.countP_append, hbits, hbytes,
      countP_encodeLen_isCommandBit, ← countP_encodeLen_isRawByte]
    exact ⟨rfl, rfl⟩
  | _ => exact absurd hi (by simp [Instr.isToken, Instr.stage])

/-- Settles O36: the source has moved by the items of the token's encoding, whose numbers are the table's. -/
theorem tokensConsumeTheirBitsAndBytes : Obligations.TokensConsumeTheirBitsAndBytes := by
  refine ⟨fun i hi => countP_encode hi, fun c c' i h1 h16 h => ?_⟩
  obtain ⟨-, hstage, hmove⟩ := encode_of_run (g := .token) rfl h h1 h16
  obtain ⟨hbits, hbytes⟩ := countP_encode (i := i) (by rw [Instr.isToken, hstage]; rfl)
  rw [hbits, hbytes] at hmove
  obtain ⟨h1', h16', words, hip, hcnt⟩ := hmove
  exact ⟨by omega, by omega⟩

end Sys2Proof

/-! How much input a decode tree can need, that it always finds it in a long enough one (30_encoding.md R55), and what trees
read in fields, at the end of a word and off written streams. -/

namespace Sys2Proof

open Sys2Proof.Machine Sys2Proof.Claims

/-! ### The cost of a tree -/

/-- No path of the tree takes more than `n` bits, a raw byte counted as eight. -/
def Reader.CostAtMost {α : Type} : Reader α → Nat → Prop
  | .done _, _ => True
  | .bit k, n => 1 ≤ n ∧ ∀ b, (k b).CostAtMost (n - 1)
  | .byte k, n => 8 ≤ n ∧ ∀ v, (k v).CostAtMost (n - 8)

theorem Reader.CostAtMost.mono {α : Type} {t : Reader α} {m n : Nat} (h : t.CostAtMost m) (hmn : m ≤ n) : t.CostAtMost n := by
  induction t generalizing m n with
  | done v => trivial
  | bit k ih => exact ⟨h.1.trans hmn, fun b => ih b (h.2 b) (Nat.sub_le_sub_right hmn 1)⟩
  | byte k ih => exact ⟨h.1.trans hmn, fun v => ih v (h.2 v) (Nat.sub_le_sub_right hmn 8)⟩

theorem Reader.CostAtMost.bit {α : Type} {k : Bool → Reader α} {n : Nat} (h : ∀ b, (k b).CostAtMost n) :
    (Reader.bit k).CostAtMost (n + 1) := ⟨Nat.le_add_left 1 n, h⟩

theorem Reader.CostAtMost.byte {α : Type} {k : Byte → Reader α} {n : Nat} (h : ∀ v, (k v).CostAtMost n) :
    (Reader.byte k).CostAtMost (n + 8) := ⟨Nat.le_add_left 8 n, h⟩

theorem Reader.CostAtMost.ite {α : Type} {p : Prop} [Decidable p] {t u : Reader α} {m n : Nat} (ht : t.CostAtMost m)
    (hmn : m ≤ n) (hu : u.CostAtMost n) : (if p then t else u).CostAtMost n := by
  split
  · exact ht.mono hmn
  · exact hu

/-- The longest sub-code of Table 2 has 8 bits. -/
theorem readOffh_cost {α : Type} {k : OffhCode → Reader α} {n : Nat} (h : ∀ o, (k o).CostAtMost n) :
    (readOffh k).CostAtMost (n + 8) :=
  .bit fun a => .bit fun _ => .ite (h (.oh2 a)) (by omega) <| .bit fun _ => .ite (h (.oh3 a)) (by omega) <|
    .bit fun b => .bit fun _ => .ite (h (.oh5 a b)) (by omega) <|
    .bit fun c => .bit fun _ => .ite (h (.oh7 a b c)) (by omega) <| .bit fun d => h (.oh8 a b c d)

/-- The costliest sub-code of Table 3 is L17: six bits and a raw byte. -/
theorem readLen_cost {α : Type} {k : LenCode → Reader α} {n : Nat} (h : ∀ m, (k m).CostAtMost n) :
    (readLen k).CostAtMost (n + 14) :=
  .bit fun _ => .ite (h .l3) (by omega) <| .bit fun _ => .ite (h .l4) (by omega) <|
    .bit fun _ => .ite (h .l5) (by omega) <| .bit fun _ => .ite (h .l6) (by omega) <|
    .bit fun _ => .ite (.bit fun b => h (.l7 b)) (by omega) <|
    .bit fun _ => .ite (.byte fun v => h (.l17 v)) (le_refl _) <|
    Reader.CostAtMost.mono (.bit fun _ => .bit fun _ => .bit fun _ => h (.l9 _)) (by omega)

/-- The costliest token is BREF with OH8 and L17: 16 bits and two raw bytes (41_tokens.md R73). -/
theorem readToken_cost : readToken.CostAtMost 32 :=
  .bit fun _ => .ite (.byte (n := 0) fun _ => trivial) (by omega) <| .bit fun _ => .byte fun l =>
    .ite (readOffh_cost fun o => readLen_cost (n := 0) fun n => trivial) (le_refl 22) <|
    Reader.CostAtMost.mono (m := 4) (.bit fun _ => .ite (.bit fun _ => .bit fun _ => .bit fun _ => trivial) (le_refl 3)
      (.ite (m := 0) trivial (by omega) trivial)) (by omega)

/-- Where a tree of bounded cost answers, it has taken no more than its cost. -/
theorem cost_of_run {α : Type} {t : Reader α} {n : Nat} (ht : t.CostAtMost n) {c c' : Source} {v : α}
    (h : t.run c = .ok v c') (h1 : 1 ≤ c.cnt) (h16 : c.cnt ≤ 16) : 8 * c'.ip + c.cnt ≤ 8 * c.ip + c'.cnt + n := by
  induction t generalizing n c with
  | done w =>
    cases h
    omega
  | bit k ih =>
    obtain ⟨hn, hk⟩ := ht
    obtain ⟨b, c1, hbit, h⟩ := ReadResult.bind_eq_ok.1 h
    have hmove := nextBit_moved hbit h1 h16
    have := ih b (hk b) h hmove.cnt_pos hmove.cnt_le
    have := hmove.cost
    omega
  | byte k ih =>
    obtain ⟨hn, hk⟩ := ht
    obtain ⟨b, c1, hbyte, h⟩ := ReadResult.bind_eq_ok.1 h
    have hmove := inByte_moved hbyte h1 h16
    have := ih b (hk b) h hmove.cnt_pos hmove.cnt_le
    have := hmove.cost
    omega

/-- Where a tree of bounded cost is cut short, no more input was there than its cost and what is left of a word. -/
theorem cost_of_run_truncated {α : Type} {t : Reader α} {n : Nat} (ht : t.CostAtMost n) {c c' : Source}
    (h : t.run c = .truncated c') (h1 : 1 ≤ c.cnt) (h16 : c.cnt ≤ 16) : 8 * c.inLen + c.cnt ≤ 8 * c.ip + n + 8 := by
  induction t generalizing n c with
  | done w => cases h
  | bit k ih =>
    obtain ⟨hn, hk⟩ := ht
    obtain hbit | ⟨b, c1, hbit, h⟩ := ReadResult.bind_eq_truncated.1 h
    · obtain ⟨hcnt, hload⟩ := nextBit_eq_truncated.1 hbit
      obtain ⟨hlen, -⟩ := loadCw_eq_truncated.1 hload
      simp only [afterShift] at hlen
      omega
    · have hmove := nextBit_moved hbit h1 h16
      have := ih b (hk b) h hmove.cnt_pos hmove.cnt_le
      have := hmove.cost
      have := (nextBit_later hbit).inLen_eq
      omega
  | byte k ih =>
    obtain ⟨hn, hk⟩ := ht
    obtain hbyte | ⟨b, c1, hbyte, h⟩ := ReadResult.bind_eq_truncated.1 h
    · obtain ⟨hlen, -⟩ := inByte_eq_truncated.1 hbyte
      omega
    · have hmove := inByte_moved hbyte h1 h16
      have := ih b (hk b) h hmove.cnt_pos hmove.cnt_le
      have := hmove.cost
      have := (inByte_later hbyte).inLen_eq
      omega

/-! ### A whole input is read or is too short -/

theorem inByte_total {c : Source} (hc : c.inp.covers c.inLen = true) :
    (∃ v c', inByte c = .ok v c') ∨ ∃ c', inByte c = .truncated c' := by
  by_cases hlen : c.ip + 1 ≤ c.inLen
  case pos =>
    obtain ⟨v, -, h⟩ := inByte_of_covers hc hlen
    exact .inl ⟨v, _, h⟩
  case neg => exact .inr ⟨c, inByte_eq_truncated.2 ⟨by omega, rfl⟩⟩

theorem nextBit_total {c : Source} (hc : c.inp.covers c.inLen = true) (h1 : 1 ≤ c.cnt) :
    (∃ b c', nextBit c = .ok b c') ∨ ∃ c', nextBit c = .truncated c' := by
  by_cases hcnt : c.cnt = 1
  case pos =>
    by_cases hlen : c.ip + 2 ≤ c.inLen
    case pos =>
      obtain ⟨lo, hi, hlo, hhi, -⟩ := loadCw_of_covers hc hlen
      exact .inl ⟨_, _, nextBit_of_refill hcnt hlen hlo hhi⟩
    case neg => exact .inr ⟨_, nextBit_of_short hcnt (by omega)⟩
  case neg => exact .inl ⟨_, _, nextBit_of_two_le (by omega)⟩

/-- In a whole input a tree reads a value or is cut short: no byte is absent, and no bit is read off an empty word. -/
theorem run_total {α : Type} (t : Reader α) {c : Source} (hc : c.inp.covers c.inLen = true) (h1 : 1 ≤ c.cnt)
    (h16 : c.cnt ≤ 16) : (∃ v c', t.run c = .ok v c') ∨ ∃ c', t.run c = .truncated c' := by
  induction t generalizing c with
  | done v => exact .inl ⟨v, c, rfl⟩
  | bit k ih =>
    obtain ⟨b, c1, hbit⟩ | ⟨c', hbit⟩ := nextBit_total hc h1
    · have hmove := nextBit_moved hbit h1 h16
      have hlater := nextBit_later hbit
      rw [Reader.run_bit, hbit, ReadResult.bind_ok]
      exact ih b (by rw [hlater.inp_eq, hlater.inLen_eq, hc]) hmove.cnt_pos hmove.cnt_le
    · exact .inr ⟨c', by rw [Reader.run_bit, hbit, ReadResult.bind_truncated]⟩
  | byte k ih =>
    obtain ⟨b, c1, hbyte⟩ | ⟨c', hbyte⟩ := inByte_total hc
    · have hmove := inByte_moved hbyte h1 h16
      have hlater := inByte_later hbyte
      rw [Reader.run_byte, hbyte, ReadResult.bind_ok]
      exact ih b (by rw [hlater.inp_eq, hlater.inLen_eq, hc]) hmove.cnt_pos hmove.cnt_le
    · exact .inr ⟨c', by rw [Reader.run_byte, hbyte, ReadResult.bind_truncated]⟩

theorem isToken_of_stage {i : Instr} (h : i.stage = .token) : i.isToken = true := by rw [Instr.isToken, h]; rfl

/-- What DECODE answers is a well-formed token. -/
theorem wf_of_decodeToken {c c' : Source} {i : Instr} (h : decodeToken c = .ok i c') (h1 : 1 ≤ c.cnt) (h16 : c.cnt ≤ 16) :
    i.wf = true ∧ i.isToken = true := by
  obtain ⟨hwf, hstage, -⟩ := encode_of_run (g := .token) rfl h h1 h16
  exact ⟨hwf, isToken_of_stage hstage⟩

/-- Settles O35: a token costs at most 32 bits, so with a bit of the word at hand five bytes are never too few. -/
theorem everyLongEnoughInputDecodes : Obligations.EveryLongEnoughInputDecodes := by
  intro c hc h1 h16 hlen
  obtain ⟨i, c', h⟩ | ⟨c', h⟩ := run_total readToken hc h1 h16
  · obtain ⟨hwf, htoken⟩ := wf_of_decodeToken h h1 h16
    exact ⟨i, c', h, hwf, htoken⟩
  · have := cost_of_run_truncated readToken_cost h h1 h16
    omega

/-! ### Fields -/

theorem ReadResult.bind_assoc {α β γ : Type} (r : ReadResult α) (f : α → Source → ReadResult β)
    (g : β → Source → ReadResult γ) : (r.bind f).bind g = r.bind fun v c => (f v c).bind g := by
  cases r <;> rfl

/-- A field's tree, from any value gathered so far, is NEXTBITS from that value. -/
theorem run_field {α : Type} (n v : Nat) (k : Nat → Reader α) (c : Source) :
    (Reader.field n v k).run c = (nextBitsFrom n v c).bind fun w c' => (k w).run c' := by
  induction n generalizing v c with
  | zero => rfl
  | succ n ih => simp only [Reader.field, Reader.run_bit, nextBitsFrom, ReadResult.bind_assoc, ih]

/-- Settles O12. -/
theorem treeFieldsAreNextBits : Obligations.TreeFieldsAreNextBits := fun n k c => run_field n 0 k c

/-! ### The end of a word, and written streams -/

theorem decodeToken_lit {c c1 c2 : Source} {v : Byte} (hflag : nextBit c = .ok true c1) (hv : inByte c1 = .ok v c2) :
    decodeToken c = .ok (.lit v) c2 := by
  rw [decodeToken, readToken, Reader.run_bit, hflag, ReadResult.bind_ok, if_pos rfl, Reader.run_byte, hv, ReadResult.bind_ok,
    Reader.run_done]

/-- Settles O38: NEXTBIT refills before it delivers LIT's flag, so InByte stands behind the new word. -/
theorem refillComesBeforeTheRawByte : Obligations.RefillComesBeforeTheRawByte := by
  intro c lo hi v hcnt hcw hlen hlo hhi hv
  have hflag := nextBit_of_refill hcnt (by omega) hlo hhi
  rw [hcw] at hflag
  have hvalue : inByte { c with ip := c.ip + 2, cw := BitVec.ofNat 16 (256 * hi.toNat + lo.toNat), cnt := 16 } =
      .ok v { c with ip := c.ip + 3, cw := BitVec.ofNat 16 (256 * hi.toNat + lo.toNat), cnt := 16 } :=
    inByte_eq_ok.2 ⟨hlen, hv, rfl⟩
  exact decodeToken_lit hflag hvalue

/-- Settles O16 by walking the tree over each stream. -/
theorem writtenWordsDecode : Obligations.WrittenWordsDecode :=
  ⟨⟨_, rfl⟩, ⟨_, rfl⟩, ⟨_, rfl⟩, ⟨_, rfl⟩, ⟨_, rfl⟩⟩

end Sys2Proof

/-! The sub-codes' tables and the token values: the assembler picks, for each value, the one instruction that has it
(30_encoding.md R52, R56, R57, R59). -/

namespace Sys2Proof

open Sys2Proof.Machine Sys2Proof.Claims

/-! ### Table 2 -/

theorem tableHigh_le (o : OffhCode) : tableHigh o ≤ 0xFF := by
  have := (offhHigh o).isLt
  rw [offhHigh_toNat] at this
  omega

theorem offhHigh_eq_ofNat (o : OffhCode) : offhHigh o = BitVec.ofNat 8 (tableHigh o) := by
  rw [← offhHigh_toNat, BitVec.ofNat_toNat, BitVec.setWidth_eq]

/-- The assembler finds each sub-code by its high byte. -/
theorem asmOffh_offhHigh (o : OffhCode) : asmOffh (offhHigh o) = some o := by
  cases o with
  | oh2 a => revert a; decide
  | oh3 a => revert a; decide
  | oh5 a b => revert a b; decide
  | oh7 a b c => revert a b c; decide
  | oh8 a b c d => revert a b c d; decide

/-- Each high byte of the table has a sub-code. -/
theorem exists_asmOffh {b : Byte} (h : 0xE0 ≤ b.toNat) : ∃ o, asmOffh b = some o ∧ tableHigh o = b.toNat := by
  have hall : ∀ k : Fin 32, (asmOffh (BitVec.ofNat 8 (0xE0 + k))).map tableHigh = some (0xE0 + k.val) := by decide
  have hk := hall ⟨b.toNat - 0xE0, by have := b.isLt; omega⟩
  rw [Nat.add_sub_cancel' h, BitVec.ofNat_toNat, BitVec.setWidth_eq] at hk
  exact Option.map_eq_some_iff.1 hk

/-- Settles O26: the assembler's choice is a sub-code of the byte (`exists_asmOffh`) and every sub-code is the assembler's choice
(`asmOffh_offhHigh`). -/
theorem offhCodesPartitionTheHighBytes : Obligations.OffhCodesPartitionTheHighBytes := by
  refine ⟨fun o => ⟨offhHigh_toNat o, le_tableHigh o, tableHigh_le o⟩, fun b hlow hhigh => ?_⟩
  have hb : (BitVec.ofNat 8 b).toNat = b := by rw [BitVec.toNat_ofNat]; omega
  obtain ⟨o, ho, hvalue⟩ := exists_asmOffh (b := BitVec.ofNat 8 b) (by omega)
  refine ⟨o, hvalue.trans hb, fun o' ho' => ?_⟩
  have := asmOffh_offhHigh o'
  rw [offhHigh_eq_ofNat, ho', ho] at this
  exact (Option.some.inj this).symm

/-! ### Table 3 -/

theorem tableLength_bounds (n : LenCode) : 3 ≤ tableLength n ∧ tableLength n ≤ 272 := by
  cases n with
  | l3 | l4 | l5 | l6 => decide
  | l7 b => cases b <;> decide
  | l17 v => have := v.isLt; simp only [tableLength]; omega
  | l9 b => have := b.isLt; simp only [tableLength]; omega

theorem lenValue_eq_ofNat (n : LenCode) : lenValue n = BitVec.ofNat 16 (tableLength n) := by
  rw [← lenValue_toNat, BitVec.ofNat_toNat, BitVec.setWidth_eq]

theorem asmLen_long {k : Nat} (h17 : 17 ≤ k) (h272 : k ≤ 272) : asmLen k = some (.l17 (BitVec.ofNat 8 (k - 17))) := by
  rw [asmLen, if_neg (by omega), if_neg (by omega), if_neg (by omega), if_neg (by omega), if_neg (by omega),
    if_neg (by omega), if_neg (by omega), if_pos ⟨h17, h272⟩]

/-- The assembler finds each sub-code by its length. -/
theorem asmLen_tableLength (n : LenCode) : asmLen (tableLength n) = some n := by
  cases n with
  | l3 | l4 | l5 | l6 => rfl
  | l7 b => cases b <;> rfl
  | l17 v =>
    have := v.isLt
    rw [tableLength, asmLen_long (by omega) (by omega), Nat.add_sub_cancel_left, BitVec.ofNat_toNat, BitVec.setWidth_eq]
  | l9 b => revert b; decide

/-- Each length of the table has a sub-code. -/
theorem exists_asmLen {k : Nat} (h3 : 3 ≤ k) (h272 : k ≤ 272) : ∃ n, asmLen k = some n ∧ tableLength n = k := by
  unfold asmLen
  split_ifs with h₃ h₄ h₅ h₆ h₇ h₈ h₉ h₁₇
  · exact ⟨_, rfl, h₃.symm⟩
  · exact ⟨_, rfl, h₄.symm⟩
  · exact ⟨_, rfl, h₅.symm⟩
  · exact ⟨_, rfl, h₆.symm⟩
  · exact ⟨_, rfl, h₇.symm⟩
  · exact ⟨_, rfl, h₈.symm⟩
  · refine ⟨_, rfl, ?_⟩
    rw [tableLength, BitVec.toNat_ofNat]
    omega
  · refine ⟨_, rfl, ?_⟩
    rw [tableLength, BitVec.toNat_ofNat]
    omega
  · omega

theorem asmLen_eq_none {k : Nat} (h : k < 3 ∨ 272 < k) : asmLen k = none := by
  cases hk : asmLen k with
  | none => rfl
  | some n =>
    unfold asmLen at hk
    split_ifs at hk <;> omega

/-- Settles O27, as Table 2 is settled: the assembler's choice is a sub-code of the length (`exists_asmLen`) and every sub-code is
the assembler's choice (`asmLen_tableLength`). -/
theorem lenCodesPartitionTheLengths : Obligations.LenCodesPartitionTheLengths := by
  refine ⟨fun n => ⟨lenValue_toNat n, tableLength_bounds n⟩, fun k h3 h272 => ?_⟩
  obtain ⟨n, hn, hvalue⟩ := exists_asmLen h3 h272
  refine ⟨n, hvalue, fun n' hn' => ?_⟩
  have := asmLen_tableLength n'
  rw [hn', hn] at this
  exact (Option.some.inj this).symm

/-! ### Offsets and their two bytes -/

theorem offsetOf_toNat (h l : Byte) : (offsetOf h l).toNat = 256 * h.toNat + l.toNat := by
  have := h.isLt
  have := l.isLt
  rw [offsetOf, pair_eq_ofNat, BitVec.toNat_ofNat]
  omega

theorem highByte_offsetOf (h l : Byte) : (offsetOf h l).extractLsb' 8 8 = h := by
  have := h.isLt
  have := l.isLt
  apply BitVec.eq_of_toNat_eq
  rw [BitVec.extractLsb'_toNat, offsetOf_toNat, Nat.shiftRight_eq_div_pow]
  omega

theorem lowByte_toNat (off : Int) : ((BitVec.ofInt 8 off).toNat : Int) = off % 256 := by
  rw [BitVec.toNat_ofInt]
  omega

/-- The high byte of a negative offset, by its bounds. -/
theorem highByte_bounds {off : Int} (hlow : -65536 ≤ off) (hneg : off < 0) :
    256 * (((BitVec.ofInt 16 off).extractLsb' 8 8).toNat : Int) ≤ off + 65536 ∧
      off + 65536 < 256 * ((BitVec.ofInt 16 off).extractLsb' 8 8).toNat + 256 := by
  rw [BitVec.extractLsb'_toNat, BitVec.toNat_ofInt, Nat.shiftRight_eq_div_pow]
  omega

/-- An offset is the pattern of the two bytes that make up its value. -/
theorem offsetOf_eq_ofInt {h l : Byte} {off : Int} (hvalue : (256 * h.toNat + l.toNat : Int) = off + 65536) :
    offsetOf h l = BitVec.ofInt 16 off := by
  have := h.isLt
  have := l.isLt
  apply BitVec.eq_of_toNat_eq
  rw [offsetOf_toNat, BitVec.toNat_ofInt]
  omega

/-- The low byte of an offset, from the value of the offset. -/
theorem lowByte_of_value {h l : Byte} {off : Int} (hvalue : off = 256 * h.toNat + l.toNat - 65536) : BitVec.ofInt 8 off = l := by
  have := l.isLt
  have := lowByte_toNat off
  apply BitVec.eq_of_toNat_eq
  omega

/-! ### References by their displacement and length -/

/-- The token of a reference has minus its displacement as offset, and its length (30_encoding.md R52). -/
theorem value_of_reference {i : Instr} {offset length : Half} (h : tokenOf i = some (.backReference offset length)) :
    isReference i = true ∧ asI16 offset = -(distance i : Int) ∧ length.toNat = copyLength i := by
  cases i with
  | sref l =>
    cases h
    refine ⟨rfl, ?_, rfl⟩
    have hpos := distance_pos (i := .sref l) rfl
    have : (0xFF : Byte).toNat = 255 := rfl
    rw [asI16_offsetOf (by decide)]
    simp only [distance] at hpos ⊢
    omega
  | mref l h =>
    cases h
    refine ⟨rfl, ?_, rfl⟩
    have hpos := distance_pos (i := .mref l h) rfl
    rw [asI16_offsetOf (by rw [mrefHigh_toNat]; omega), mrefHigh_toNat]
    simp only [distance] at hpos ⊢
    omega
  | bref l o n =>
    cases h
    refine ⟨rfl, ?_, lenValue_toNat n⟩
    have hpos := distance_pos (i := .bref l o n) rfl
    have hhigh := le_tableHigh o
    rw [asI16_offsetOf (by rw [offhHigh_toNat]; omega), offhHigh_toNat]
    simp only [distance] at hpos ⊢
    omega
  | _ => cases h

theorem distance_le {i : Instr} (hi : isReference i = true) : distance i ≤ 8192 := by
  cases i with
  | sref l => simp only [distance]; omega
  | mref l h => simp only [distance]; omega
  | bref l o n => have := le_tableHigh o; simp only [distance]; omega
  | _ => cases hi

theorem copyLength_bounds {i : Instr} (hi : isReference i = true) : 2 ≤ copyLength i ∧ copyLength i ≤ 272 := by
  cases i with
  | sref | mref => exact ⟨le_refl 2, Nat.le_add_left 2 270⟩
  | bref l o n => have := tableLength_bounds n; simp only [copyLength]; omega
  | _ => cases hi

/-- A copy of two bytes is a short form's, and those reach from -2304 to -2. -/
theorem distance_of_copyLength_two {i : Instr} (hi : isReference i = true) (hwf : i.wf = true) (h : copyLength i = 2) :
    2 ≤ distance i ∧ distance i ≤ 2304 := by
  cases i with
  | sref l =>
    have hl : l ≠ 0xFF := by simpa [Instr.wf] using hwf
    have : l.toNat ≠ (0xFF : Byte).toNat := fun e => hl (BitVec.eq_of_toNat_eq e)
    have : (0xFF : Byte).toNat = 255 := rfl
    have := l.isLt
    simp only [distance]
    omega
  | mref l k =>
    have := l.isLt
    have := k.isLt
    simp only [distance]
    omega
  | bref l o n => have := tableLength_bounds n; simp only [copyLength] at h; omega
  | _ => cases hi

/-- Settles O29. -/
theorem decodedReferencesStayInRange : Obligations.DecodedReferencesStayInRange := by
  intro i offset length hwf h
  obtain ⟨hi, hoffset, hlength⟩ := value_of_reference h
  have hpos := distance_pos hi
  have hdist := distance_le hi
  obtain ⟨h2, h272⟩ := copyLength_bounds hi
  refine ⟨by omega, by omega, by omega, by omega, fun hshort => ?_⟩
  have := distance_of_copyLength_two hi hwf (hlength.symm.trans hshort)
  omega

/-! ### The assembler's choice of a form -/

theorem asmRef_sref {off : Int} (hlow : -256 ≤ off) (hhigh : off ≤ -2) : asmRef off 2 = some (.sref (BitVec.ofInt 8 off)) := by
  rw [asmRef, if_pos rfl, asmSref, if_pos ⟨hlow, hhigh⟩]
  rfl

theorem asmRef_mref {off : Int} (hlow : -2304 ≤ off) (hhigh : off ≤ -257) : asmRef off 2 =
    some (.mref (BitVec.ofInt 8 off) (((BitVec.ofInt 16 off).extractLsb' 8 8 + 1).setWidth 3)) := by
  rw [asmRef, if_pos rfl, asmSref, if_neg (by omega), asmMref, if_pos ⟨hlow, hhigh⟩]
  rfl

theorem asmBref_eq {off : Int} {len : Nat} {o : OffhCode} {n : LenCode} (hlow : -8192 ≤ off) (hhigh : off ≤ -1)
    (ho : asmOffh ((BitVec.ofInt 16 off).extractLsb' 8 8) = some o) (hn : asmLen len = some n) :
    asmBref off len = some (.bref (BitVec.ofInt 8 off) o n) := by
  rw [asmBref, if_pos ⟨hlow, hhigh⟩, ho, hn]

/-- MREF's field gives the high byte of its offset back (41_tokens.md R69). -/
theorem mrefHigh_field {high : Byte} (hlow : 247 ≤ high.toNat) (hhigh : high.toNat ≤ 254) :
    mrefHigh ((high + 1).setWidth 3) = high := by
  apply BitVec.eq_of_toNat_eq
  have : (1 : Byte).toNat = 1 := rfl
  rw [mrefHigh_toNat, BitVec.toNat_setWidth, BitVec.toNat_add]
  omega

/-- An offset in the range of SREF, MREF and BREF is the pattern of its bytes. -/
theorem offsetOf_bytes {off : Int} (hlow : -8192 ≤ off) (hneg : off ≤ -1) :
    offsetOf ((BitVec.ofInt 16 off).extractLsb' 8 8) (BitVec.ofInt 8 off) = BitVec.ofInt 16 off := by
  have := highByte_bounds (off := off) (by omega) (by omega)
  have := lowByte_toNat off
  exact offsetOf_eq_ofInt (by omega)

theorem tokenOf_asm_sref {off : Int} (hlow : -256 ≤ off) (hhigh : off ≤ -2) :
    (Instr.sref (BitVec.ofInt 8 off)).wf = true ∧
      tokenOf (.sref (BitVec.ofInt 8 off)) = some (.backReference (BitVec.ofInt 16 off) 2) := by
  have hlowByte := lowByte_toNat off
  have h255 : (0xFF : Byte).toNat = 255 := rfl
  refine ⟨bne_iff_ne.2 fun h => ?_, ?_⟩
  · rw [h, h255] at hlowByte
    omega
  · rw [tokenOf, offsetOf_eq_ofInt (off := off) (by omega)]
    rfl

theorem tokenOf_asm_mref {off : Int} (hlow : -2304 ≤ off) (hhigh : off ≤ -257) :
    tokenOf (.mref (BitVec.ofInt 8 off) (((BitVec.ofInt 16 off).extractLsb' 8 8 + 1).setWidth 3)) =
      some (.backReference (BitVec.ofInt 16 off) 2) := by
  have := highByte_bounds (off := off) (by omega) (by omega)
  rw [tokenOf, mrefHigh_field (by omega) (by omega), offsetOf_bytes (by omega) (by omega)]
  rfl

theorem tokenOf_asm_bref {off : Int} {len : Nat} {o : OffhCode} {n : LenCode} (hlow : -8192 ≤ off) (hhigh : off ≤ -1)
    (ho : tableHigh o = ((BitVec.ofInt 16 off).extractLsb' 8 8).toNat) (hn : tableLength n = len) :
    tokenOf (.bref (BitVec.ofInt 8 off) o n) = some (.backReference (BitVec.ofInt 16 off) (BitVec.ofNat 16 len)) := by
  rw [tokenOf, offhHigh_eq_ofNat, ho, BitVec.ofNat_toNat, BitVec.setWidth_eq, offsetOf_bytes hlow hhigh, lenValue_eq_ofNat, hn]

/-- In BREF's range the assembler finds both sub-codes. -/
theorem exists_asmBref {off : Int} {len : Nat} (hlow : -8192 ≤ off) (hhigh : off ≤ -1) (h3 : 3 ≤ len) (h272 : len ≤ 272) :
    ∃ o n, asmBref off len = some (.bref (BitVec.ofInt 8 off) o n) ∧
      tableHigh o = ((BitVec.ofInt 16 off).extractLsb' 8 8).toNat ∧ tableLength n = len := by
  have := highByte_bounds (off := off) (by omega) (by omega)
  obtain ⟨o, ho, hhighByte⟩ := exists_asmOffh (b := (BitVec.ofInt 16 off).extractLsb' 8 8) (by omega)
  obtain ⟨n, hn, hlength⟩ := exists_asmLen h3 h272
  exact ⟨o, n, asmBref_eq hlow hhigh ho hn, hhighByte, hlength⟩

theorem asmBref_eq_none {off : Int} {len : Nat} (h : ¬ (3 ≤ len ∧ len ≤ 272 ∧ -8192 ≤ off ∧ off ≤ -1)) :
    asmBref off len = none := by
  by_cases hoff : -8192 ≤ off ∧ off ≤ -1
  case pos =>
    rw [asmBref, if_pos hoff, asmLen_eq_none (by omega)]
    cases asmOffh _ <;> rfl
  case neg => rw [asmBref, if_neg hoff]

/-- Settles O40: the ranges of the three forms exclude each other, and in each the assembler's bytes make up the offset. -/
theorem refPicksTheOneForm : Obligations.RefPicksTheOneForm := by
  refine fun off len => ⟨fun h2 hlow hhigh => ?sref, fun h2 hlow hhigh => ?mref, fun h3 h272 hlow hhigh => ?bref,
    fun hshort hlong => ?refused⟩
  case sref =>
    rw [h2]
    exact ⟨_, asmRef_sref hlow hhigh, tokenOf_asm_sref hlow hhigh⟩
  case mref =>
    rw [h2]
    exact ⟨_, _, asmRef_mref hlow hhigh, tokenOf_asm_mref hlow hhigh⟩
  case bref =>
    obtain ⟨o, n, hasm, hhighByte, hlength⟩ := exists_asmBref hlow hhigh h3 h272
    exact ⟨_, o, n, by rw [asmRef, if_neg (by omega), hasm], tokenOf_asm_bref hlow hhigh hhighByte hlength⟩
  case refused =>
    by_cases h2 : len = 2
    case pos =>
      rw [asmRef, if_pos h2, asmSref, if_neg (by omega), asmMref, if_neg (by omega)]
      rfl
    case neg => rw [asmRef, if_neg h2, asmBref_eq_none hlong]

/-! ### One encoding for each value -/

/-- The assembler gives a well-formed reference back from its offset and length. -/
theorem asmRef_of_tokenOf {i : Instr} {offset length : Half} (hwf : i.wf = true)
    (h : tokenOf i = some (.backReference offset length)) : asmRef (asI16 offset) length.toNat = some i := by
  obtain ⟨hi, hoffset, hlength⟩ := value_of_reference h
  cases i with
  | sref l =>
    have hrange := distance_of_copyLength_two hi hwf rfl
    simp only [distance] at hoffset hrange
    have : (0xFF : Byte).toNat = 255 := rfl
    rw [hlength, copyLength, asmRef_sref (by omega) (by omega), lowByte_of_value (h := 0xFF) (l := l) (by omega)]
  | mref l k =>
    cases h
    have hl := l.isLt
    have hk := k.isLt
    have hhigh := mrefHigh_toNat k
    simp only [distance] at hoffset
    rw [hlength, copyLength, asmRef_mref (by omega) (by omega), lowByte_of_value (h := mrefHigh k) (l := l) (by omega),
      BitVec.ofInt_toInt, highByte_offsetOf]
    congr 2
    apply BitVec.eq_of_toNat_eq
    have : (1 : Byte).toNat = 1 := rfl
    rw [BitVec.toNat_setWidth, BitVec.toNat_add]
    omega
  | bref l o n =>
    cases h
    have hpos := distance_pos hi
    have hdist := distance_le hi
    have hhigh := offhHigh_toNat o
    have h3 := tableLength_bounds n
    rw [hlength, copyLength, asmRef, if_neg (by omega)]
    have hlowByte : BitVec.ofInt 8 (asI16 (offsetOf (offhHigh o) l)) = l :=
      lowByte_of_value (h := offhHigh o) (by simp only [distance] at hoffset hpos; omega)
    rw [asmBref_eq (o := o) (n := n) (by omega) (by omega)
      (by rw [BitVec.ofInt_toInt, highByte_offsetOf, asmOffh_offhHigh]) (asmLen_tableLength n), hlowByte]
  | _ => cases hi

theorem eq_lit_of_tokenOf {i : Instr} {v : Byte} (h : tokenOf i = some (.literal v)) : i = .lit v := by
  cases i <;> cases h
  rfl

theorem eq_eof_of_tokenOf {i : Instr} (h : tokenOf i = some .endOfFile) : i = .eof := by
  cases i <;> cases h
  rfl

/-- Instructions with one token value are equal: a reference is what the assembler makes of its value. -/
theorem eq_of_tokenOf {i j : Instr} {k : Token} (hi : i.wf = true) (hj : j.wf = true) (hik : tokenOf i = some k)
    (hjk : tokenOf j = some k) : i = j := by
  cases k with
  | literal v => rw [eq_lit_of_tokenOf hik, eq_lit_of_tokenOf hjk]
  | endOfFile => rw [eq_eof_of_tokenOf hik, eq_eof_of_tokenOf hjk]
  | backReference offset length =>
    exact Option.some.inj ((asmRef_of_tokenOf hi hik).symm.trans (asmRef_of_tokenOf hj hjk))

theorem exists_tokenOf {i : Instr} (hi : i.isToken = true) : ∃ k, tokenOf i = some k := by
  cases i with
  | lit | eof | sref | mref | bref => exact ⟨_, rfl⟩
  | _ => cases hi

/-- Settles O30: a value gives its instruction back, and in each form's range the assembler's instruction has the value. -/
theorem eachTokenValueHasOneEncoding : Obligations.EachTokenValueHasOneEncoding := by
  refine ⟨fun i j hi hj htoken h => ?unique, fun v => rfl, rfl, fun off hlow hhigh => ?sref, fun off hlow hhigh => ?mref,
    fun off len hlow hhigh h3 h272 => ?bref⟩
  case unique =>
    obtain ⟨k, hk⟩ := exists_tokenOf htoken
    exact eq_of_tokenOf hi hj hk (h.symm.trans hk)
  case sref => exact ⟨_, tokenOf_asm_sref hlow hhigh⟩
  case mref => exact ⟨_, _, tokenOf_asm_mref hlow hhigh⟩
  case bref =>
    obtain ⟨o, n, -, hhighByte, hlength⟩ := exists_asmBref hlow hhigh h3 h272
    exact ⟨_, o, n, tokenOf_asm_bref hlow hhigh hhighByte hlength⟩

end Sys2Proof

/-! What executing one instruction does, token by token and sub-code by sub-code (41_tokens.md R66 to R72, 42_output_engine.md
R74 to R79), and what RUN's two tokens do together (30_encoding.md R59). -/

namespace Sys2Proof.Machine

open Sys2Proof.Claims

/-! ### LIT and EOF -/

theorem sizeCheck_of_within {s : State} (h : s.olen ≤ 65535) : sizeCheck s = s := by
  obtain ⟨-, heq⟩ | ⟨hlt, -⟩ := sizeCheck_cases s
  · exact heq
  · exact absurd h (Nat.not_le.2 hlt)

theorem exec_eof (s : State) : exec .eof s = .next (endStep { s with status := .done }) := rfl

/-- Below the ceiling LIT is its append. -/
theorem exec_lit_of_room (v : Byte) {s : State} (h : s.olen < 65535) : exec (.lit v) s = .next (endStep (outAppend v s)) := by
  rw [exec_lit, sizeCheck_of_within (by rw [outAppend_olen]; omega)]

/-- Settles O17. -/
theorem litAppendsItsByte : Obligations.LitAppendsItsByte := fun v s h =>
  ⟨_, exec_lit_of_room v h, Memory.read_write_same _ _ _, outAppend_appended v s, ⟨rfl, rfl⟩, rfl, rfl, rfl, rfl⟩

/-- Settles O18. -/
theorem eofEndsTheJob : Obligations.EofEndsTheJob := fun s => ⟨_, exec_eof s, rfl, rfl, rfl, rfl, rfl, rfl, rfl, rfl⟩

/-! ### References -/

/-- A reference in range whose copy stays within the ceiling ends with its copy: the size check finds nothing. -/
theorem completesAsCopy_of_isReference {i : Instr} (hi : isReference i = true) : CompletesAsCopy i := by
  intro s hs hin hroom
  obtain ⟨u, hexec, hrepeats, ⟨holen, hold⟩, hgoesOn, hsrc, herrOffset, herrStart⟩ :=
    exec_reference_in_range hi hs (by omega) hin
  exact ⟨endStep u, by rw [hexec, sizeCheck_of_within (by omega)], hrepeats, ⟨holen, hold⟩, hgoesOn, hsrc, herrOffset,
    herrStart, rfl⟩

/-- Settles O19. -/
theorem srefCopiesTwoBytes : Obligations.SrefCopiesTwoBytes := fun _ => completesAsCopy_of_isReference rfl

/-- Settles O20. -/
theorem mrefCopiesTwoBytes : Obligations.MrefCopiesTwoBytes := fun _ _ => completesAsCopy_of_isReference rfl

/-- Settles O21. -/
theorem brefCopiesItsLength : Obligations.BrefCopiesItsLength := fun _ _ _ => completesAsCopy_of_isReference rfl

/-- A reference that reaches behind the start of the output raises InvalidAddress, with the offset and the wrapped start index. -/
theorem exec_reference_out_of_range {i : Instr} {s : State} (hi : isReference i = true) (hlen : s.olen ≤ 65535)
    (hout : s.olen < distance i) :
    ∃ offset start : Half, exec i s = .next (endStep (raiseError (.invalidAddress offset start) s)) ∧
      asI16 offset = -(distance i : Int) ∧ start.toNat = 65536 + s.olen - distance i := by
  obtain ⟨offset, length, temps, hexec, hoffset, -⟩ := exec_reference hi s
  have hdist := distance_le hi
  have hstart := startIndex_wrapped (olen := s.olen) (offset := offset) (by omega)
  have hinvalid : s.olen ≤ (startIndex s.olen offset).toNat := by omega
  refine ⟨offset, startIndex s.olen offset, ?_, hoffset, by omega⟩
  rw [hexec, execBackReference_invalid (s := { s with temps := temps }) hinvalid]
  rfl

/-- Settles O22. -/
theorem farReferencesRaiseInvalidAddress : Obligations.FarReferencesRaiseInvalidAddress := by
  intro i s hi hlen hout
  obtain ⟨offset, start, hexec, hoffset, hstart⟩ := exec_reference_out_of_range hi hlen hout
  exact ⟨_, hexec, rfl, rfl, hoffset, hstart, rfl, rfl, rfl, rfl⟩

/-! ### Sub-codes -/

theorem exec_ofOffh (o : OffhCode) (s : State) : exec (.ofOffh o) s = .next (applyOffh o s) := by
  cases o <;> rfl

theorem exec_ofLen (n : LenCode) (s : State) : exec (.ofLen n) s = .next (applyLen n s) := by
  cases n <;> rfl

theorem exec_ofOffh_eq_table (o : OffhCode) (s : State) : exec (.ofOffh o) s =
    .next { s with temps := { s.temps with offsetH := BitVec.ofNat 8 (tableHigh o), stage := .len } } := by
  rw [exec_ofOffh, applyOffh, offhHigh_eq_ofNat]

theorem exec_ofLen_eq_table (n : LenCode) (s : State) : exec (.ofLen n) s =
    .next { s with temps := { s.temps with length := BitVec.ofNat 16 (tableLength n), stage := .resolve } } := by
  rw [exec_ofLen, applyLen, lenValue_eq_ofNat]

/-- Settles O24: each row is a sub-code of Table 2. -/
theorem offhRowsGiveTheHighByte : Obligations.OffhRowsGiveTheHighByte :=
  ⟨fun a => exec_ofOffh_eq_table (.oh2 a), fun a => exec_ofOffh_eq_table (.oh3 a),
    fun a b => exec_ofOffh_eq_table (.oh5 a b), fun a b c => exec_ofOffh_eq_table (.oh7 a b c),
    fun a b c d => exec_ofOffh_eq_table (.oh8 a b c d)⟩

/-- Settles O25: each row is a sub-code of Table 3. -/
theorem lenRowsGiveTheLength : Obligations.LenRowsGiveTheLength :=
  ⟨exec_ofLen_eq_table .l3, exec_ofLen_eq_table .l4, exec_ofLen_eq_table .l5, exec_ofLen_eq_table .l6,
    fun b => exec_ofLen_eq_table (.l7 b), fun v => exec_ofLen_eq_table (.l17 v), fun b => exec_ofLen_eq_table (.l9 b)⟩

/-- At the last stage a STEP reads nothing and executes the reference. -/
theorem step_of_resolve {s : State} (hbusy : s.status = .busy) (hstage : s.temps.stage = .resolve) :
    step s = completeReference s := by
  rw [step, hbusy, hstage]
  rfl

/-- Settles O28: the two rows write what BREF writes before it completes the reference. -/
theorem brefIsItsSubCodesInOrder : Obligations.BrefIsItsSubCodesInOrder := fun l o n s hbusy =>
  ⟨applyOffh o (openReference l s), applyLen n (applyOffh o (openReference l s)), exec_ofOffh o _, rfl, exec_ofLen n _, rfl,
    step_of_resolve hbusy rfl⟩

/-! ### RUN -/

/-- Appends follow one another. -/
theorem appended_trans {m n : Nat} {s t u : State} (h : Appended m s t) (k : Appended n t u) : Appended (m + n) s u := by
  obtain ⟨hlen, hold⟩ := h
  obtain ⟨hlen', hold'⟩ := k
  exact ⟨by omega, fun a ha => (hold' a (by omega)).trans (hold a (by omega))⟩

/-- The reference of RUN copies the byte before it: its displacement is 1. -/
theorem exists_asmBref_neg_one {k : Nat} (h3 : 3 ≤ k) (h272 : k ≤ 272) :
    ∃ r, asmBref (-1) k = some r ∧ r.wf = true ∧ isReference r = true ∧ distance r = 1 ∧ copyLength r = k := by
  obtain ⟨o, n, hasm, hhigh, hlength⟩ := exists_asmBref (off := -1) (by decide) (by decide) h3 h272
  refine ⟨_, hasm, rfl, rfl, ?_, hlength⟩
  rw [distance, hhigh]
  rfl

/-- A copy from one byte back fills the output with that byte. -/
theorem read_of_repeatsLast_one {n : Nat} {s t : State} {v : Byte} (h : RepeatsLast 1 n s t)
    (hv : s.out.read (s.olen - 1) = some v) {j : Nat} (hj : j < n) : t.out.read (s.olen + j) = some v := by
  rw [h j hj, Nat.mod_one, Nat.add_zero, hv]

/-- A literal and a reference one byte back append copies of the literal. -/
theorem exec_lit_then_reference {v : Byte} {r : Instr} {s : State} (hr : isReference r = true) (hdist : distance r = 1)
    (hs : s.outputOk) (hroom : s.olen + 1 + copyLength r ≤ 65535) :
    ∃ t u, exec (.lit v) s = .next t ∧ exec r t = .next u ∧ Appended (1 + copyLength r) s u ∧
      (∀ j, j < 1 + copyLength r → u.out.read (s.olen + j) = some v) ∧ JobGoesOn s u ∧ OnlyOutputChanged s u := by
  let t := endStep (outAppend v s)
  have ht : t.out.read s.olen = some v := Memory.read_write_same _ _ _
  obtain ⟨u, hexec, hrepeats, happended, hgoesOn, honly⟩ := completesAsCopy_of_isReference hr t
    (Memory.covers_write hs v) (by rw [hdist]; exact Nat.le_add_left 1 _) hroom
  refine ⟨t, u, exec_lit_of_room v (by omega), hexec, appended_trans (outAppend_appended v s) happended, fun j hj => ?_,
    hgoesOn, honly⟩
  cases j with
  | zero => exact (happended.2 s.olen (.inl (Nat.lt_succ_self _))).trans ht
  | succ j =>
    rw [hdist] at hrepeats
    rw [← Nat.add_assoc, Nat.add_right_comm]
    exact read_of_repeatsLast_one hrepeats ht (by omega)

/-- Settles O39: RUN is a literal and a reference one byte back. -/
theorem runAppendsCopies : Obligations.RunAppendsCopies := by
  refine ⟨fun v n hn => ?refused, fun v n h4 h273 => ?assembled⟩
  case refused => rw [asmRun, if_neg (by omega)]
  case assembled =>
    obtain ⟨r, hasm, hwf, hr, hdist, hlength⟩ := exists_asmBref_neg_one (k := n - 1) (by omega) (by omega)
    refine ⟨r, by rw [asmRun, if_pos ⟨h4, h273⟩, hasm]; rfl, hwf, fun s hs hroom => ?_⟩
    have hn : 1 + copyLength r = n := by omega
    have hrun := exec_lit_then_reference (v := v) hr hdist hs (by omega)
    rwa [hn] at hrun

end Sys2Proof.Machine

/-! What each token does to the output and to the status registers, what a STEP therefore does, and that every step keeps the
invariant of a token boundary (10_state.md R14 to R22, 42_output_engine.md R80, 60_exceptions.md R84 to R87). -/

namespace Sys2Proof.Machine

open Sys2Proof.Claims

/-! ### How the output grows -/

/-- `n` bytes were appended to the output, which stays whole and canonical if it was. -/
structure OutputGrown (n : Nat) (s t : State) : Prop where
  appended : Appended n s t
  whole : s.outputOk → t.outputOk
  canonical : s.out.wf = true → t.out.wf = true

/-- The output has grown and every register beside it stands. -/
structure Extended (n : Nat) (s u : State) : Prop where
  grown : OutputGrown n s u
  src : u.src = s.src
  goesOn : JobGoesOn s u
  errOffset : u.errOffset = s.errOffset
  errStart : u.errStart = s.errStart

theorem OutputGrown.of_eq {s t : State} (hout : t.out = s.out) (hlen : t.olen = s.olen) : OutputGrown 0 s t where
  appended := ⟨hlen, fun _ _ => by rw [hout]⟩
  whole h := by rw [State.outputOk, hout, hlen]; exact h
  canonical h := by rw [hout]; exact h

/-- Where the output is the same, it has grown the same. -/
theorem OutputGrown.congr {n : Nat} {s t u : State} (h : OutputGrown n s u) (hout : t.out = u.out) (hlen : t.olen = u.olen) :
    OutputGrown n s t where
  appended := ⟨hlen.trans h.appended.1, fun a ha => by rw [hout]; exact h.appended.2 a ha⟩
  whole hs := by rw [State.outputOk, hout, hlen]; exact h.whole hs
  canonical hs := by rw [hout]; exact h.canonical hs

/-- Of the state before, only the output counts. -/
theorem OutputGrown.of_same_output {n : Nat} {s s' t : State} (h : OutputGrown n s' t) (hout : s'.out = s.out)
    (hlen : s'.olen = s.olen) : OutputGrown n s t where
  appended := by
    obtain ⟨holen, hold⟩ := h.appended
    rw [hlen] at holen hold
    exact ⟨holen, fun a ha => by rw [hold a ha, hout]⟩
  whole hs := h.whole (by rw [State.outputOk, hout, hlen]; exact hs)
  canonical hs := h.canonical (by rw [hout]; exact hs)

theorem outAppend_extended (v : Byte) (s : State) : Extended 1 s (outAppend v s) where
  grown := ⟨outAppend_appended v s, fun h => Memory.covers_write h v, fun h => Memory.wf_write _ _ _ h⟩
  src := rfl
  goesOn := ⟨rfl, rfl⟩
  errOffset := rfl
  errStart := rfl

theorem copy_extended {n i : Nat} {s t : State} (h : copy n i s = .next t) : Extended n s t := by
  obtain ⟨hsrc, hstatus, hcause, herrOffset, herrStart, -, holen, hold⟩ := copy_frame h
  exact ⟨⟨⟨holen, hold⟩, copy_covers h, copy_wf h⟩, hsrc, ⟨hstatus, hcause⟩, herrOffset, herrStart⟩

/-- The size check raises OutputSizeOverflow or does nothing, and leaves the output alone. -/
theorem sizeCheck_output (s : State) : (sizeCheck s).out = s.out ∧ (sizeCheck s).olen = s.olen ∧ (sizeCheck s).src = s.src := by
  obtain ⟨-, h⟩ | ⟨-, h⟩ := sizeCheck_cases s <;> rw [h] <;> exact ⟨rfl, rfl, rfl⟩

/-! ### What executing an instruction does -/

/-- All that a back-reference does when it answers a next state, whatever the temporaries were: it raises InvalidAddress, or it
copies and meets the size check. -/
theorem execBackReference_effect {offset length : Half} {s t : State} {temps : Temps}
    (h : execBackReference offset length { s with temps := temps } = .next t) :
    (∃ offset start, t = endStep (raiseError (.invalidAddress offset start) s)) ∨
      ∃ u, Extended length.toNat s u ∧ t = endStep (sizeCheck u) := by
  obtain ⟨-, rfl⟩ | ⟨-, u, hcopy, rfl⟩ := execBackReference_cases h
  · exact .inl ⟨_, _, rfl⟩
  · obtain ⟨hgrown, hsrc, hgoesOn, herrOffset, herrStart⟩ := copy_extended hcopy
    exact .inr ⟨u, ⟨hgrown.of_same_output rfl rfl, hsrc, hgoesOn, herrOffset, herrStart⟩, rfl⟩

/-- All that a reference does when it answers a next state: it reaches behind the output, or appends 2 to 272 bytes and meets the
size check. -/
theorem exec_reference_cases {i : Instr} {s t : State} (hi : isReference i = true) (h : exec i s = .next t) :
    (∃ offset start, t = endStep (raiseError (.invalidAddress offset start) s)) ∨
      ∃ n u, 1 ≤ n ∧ n ≤ 272 ∧ Extended n s u ∧ t = endStep (sizeCheck u) := by
  obtain ⟨offset, length, temps, hexec, -, hlength⟩ := exec_reference hi s
  obtain ⟨h2, h272⟩ := copyLength_bounds hi
  obtain hinvalid | ⟨u, hu, ht⟩ := execBackReference_effect (hexec.symm.trans h)
  · exact .inl hinvalid
  · exact .inr ⟨length.toNat, u, by omega, by omega, hu, ht⟩

/-- All that an instruction does when it answers a next state: EOF ends the job, a reference may reach behind the output, a
literal or a reference appends up to 272 bytes and meets the size check, and a sub-code writes the temporaries. -/
theorem exec_cases {i : Instr} {s t : State} (h : exec i s = .next t) :
    (i = .eof ∧ t = endStep { s with status := .done }) ∨
    (isReference i = true ∧ ∃ offset start, t = endStep (raiseError (.invalidAddress offset start) s)) ∨
    ((isReference i = true ∨ ∃ v, i = .lit v) ∧ ∃ n u, 1 ≤ n ∧ n ≤ 272 ∧ Extended n s u ∧ t = endStep (sizeCheck u)) ∨
    (i.isToken = false ∧ ∃ temps, t = { s with temps := temps }) := by
  cases i with
  | lit v =>
    cases h
    exact .inr (.inr (.inl ⟨.inr ⟨v, rfl⟩, 1, _, le_refl 1, by decide, outAppend_extended v s, rfl⟩))
  | eof =>
    cases h
    exact .inl ⟨rfl, rfl⟩
  | sref | mref | bref =>
    obtain hinvalid | hcopied := exec_reference_cases rfl h
    · exact .inr (.inl ⟨rfl, hinvalid⟩)
    · exact .inr (.inr (.inl ⟨.inl rfl, hcopied⟩))
  | _ =>
    cases h
    exact .inr (.inr (.inr ⟨rfl, _, rfl⟩))

/-- The output only grows, and the source stands, whatever is executed. -/
theorem exec_grown {i : Instr} {s t : State} (h : exec i s = .next t) : t.src = s.src ∧ ∃ n, OutputGrown n s t := by
  obtain ⟨-, rfl⟩ | ⟨-, offset, start, rfl⟩ | ⟨-, n, u, -, -, hu, rfl⟩ | ⟨-, temps, rfl⟩ := exec_cases h
  · exact ⟨rfl, 0, .of_eq rfl rfl⟩
  · exact ⟨rfl, 0, .of_eq rfl rfl⟩
  · obtain ⟨hout, hlen, hsrc⟩ := sizeCheck_output u
    exact ⟨hsrc.trans hu.src, n, hu.grown.congr hout hlen⟩
  · exact ⟨rfl, 0, .of_eq rfl rfl⟩

/-! ### What a STEP is -/

theorem step_of_ok {s : State} {t : Reader Instr} {i : Instr} {c : Source} (hbusy : s.status = .busy)
    (ht : treeAt s.temps.stage = some t) (h : t.run s.src = .ok i c) : step s = exec i (s.withSource c) := by
  simp only [step, hbusy, ht, h]

theorem step_of_truncated {s : State} {t : Reader Instr} {c : Source} (hbusy : s.status = .busy)
    (ht : treeAt s.temps.stage = some t) (h : t.run s.src = .truncated c) : step s = .next (takeTruncation c s) := by
  simp only [step, hbusy, ht, h]

theorem step_of_not_busy {s : State} (h : s.status ≠ .busy) : step s = .refused .stepNotBusy := by
  cases hs : s.status with
  | busy => exact absurd hs h
  | idle | done | error => simp only [step, hs]

/-- Settles O5. -/
theorem stepIsRefusedUnlessBusy : Obligations.StepIsRefusedUnlessBusy := fun _ h => step_of_not_busy h

/-- Settles O14. -/
theorem stepRunsTheDecodedInstruction : Obligations.StepRunsTheDecodedInstruction := fun _ _ _ _ hbusy ht h =>
  step_of_ok hbusy ht h

theorem later_of_run {α : Type} {t : Reader α} {c c' : Source} {v : α} (h : t.run c = .ok v c') : c.Later c' :=
  ((run_later t c).1 v c' h).1

theorem wordOk_of_run {α : Type} {t : Reader α} {c c' : Source} {v : α} (h : t.run c = .ok v c') (hc : c.wordOk) : c'.wordOk :=
  ((run_later t c).1 v c' h).2 hc

theorem later_of_run_truncated {α : Type} {t : Reader α} {c c' : Source} (h : t.run c = .truncated c') : c.Later c' :=
  (run_later t c).2 c' h

/-- The source of a Truncation is later than the failing read, and within the input. -/
theorem truncated_later (c : Source) : c.Later { c with ip := truncatedIp c } := by
  obtain ⟨hlow, hhigh⟩ := truncatedIp_bounds c
  exact ⟨rfl, rfl, hlow, hhigh, id⟩

/-- Settles O15: a Truncation writes nothing but STATUS, CAUSE, the source and the cleared temporaries, and the reads before it
have moved the source forward only. -/
theorem shortInputRaisesTruncation : Obligations.ShortInputRaisesTruncation := by
  intro s t c hbusy ht hip h
  obtain ⟨hinp, hlen, hmoved, hwithin, -⟩ := later_of_run_truncated h
  obtain ⟨-, -, hlow, hhigh, -⟩ := truncated_later c
  exact ⟨_, step_of_truncated hbusy ht h, rfl, rfl, rfl, rfl, rfl, rfl, rfl, rfl, rfl, hinp, hlen, hmoved, hlow,
    (hhigh (hwithin hip)).trans_eq hlen⟩

/-! ### What every STEP does -/

/-- From every state, a step moves the source forward only, and the output only grows. -/
theorem step_grown {s t : State} (h : step s = .next t) : s.src.Later t.src ∧ ∃ n, OutputGrown n s t := by
  obtain ⟨-, ⟨-, hcomplete⟩ | ⟨tree, -, ⟨i, c, hrun, hexec⟩ | ⟨c, hrun, rfl⟩⟩⟩ := step_cases h
  · obtain ⟨offset, start, rfl⟩ | ⟨u, hu, rfl⟩ := execBackReference_effect (s := s) (temps := s.temps) hcomplete
    · exact ⟨.refl _, 0, .of_eq rfl rfl⟩
    · obtain ⟨hout, hlen, hsrc⟩ := sizeCheck_output u
      refine ⟨?_, _, hu.grown.congr hout hlen⟩
      rw [endStep_src, hsrc, hu.src]
      exact .refl _
  · obtain ⟨hsrc, n, hgrown⟩ := exec_grown hexec
    refine ⟨?_, n, hgrown.of_same_output rfl rfl⟩
    rw [hsrc]
    exact later_of_run hrun
  · exact ⟨(later_of_run_truncated hrun).trans (truncated_later c), 0, .of_eq rfl rfl⟩

/-- Settles O43: the input stands, and appends keep the canonical form. -/
theorem everyStepKeepsMemoryCanonical : Obligations.EveryStepKeepsMemoryCanonical := by
  intro s t hout hinp h
  obtain ⟨hlater, n, hgrown⟩ := step_grown h
  exact ⟨hgrown.canonical hout, by rw [hlater.inp_eq, hinp]⟩

/-- Settles O44. -/
theorem stepsOnlyMoveForward : Obligations.StepsOnlyMoveForward := by
  intro s t h
  obtain ⟨⟨hinp, hlen, hip, -⟩, n, ⟨holen, hold⟩, -, -⟩ := step_grown h
  exact ⟨hinp, hlen, hip, by omega, fun a ha => hold a (by omega)⟩

/-! ### A STEP from a token boundary -/

/-- From a token boundary a step is one token, or a Truncation while it is read. -/
theorem step_boundary_cases {s t : State} (hstage : s.temps.stage = .token) (h : step s = .next t) :
    s.status = .busy ∧ ((∃ i c, decodeToken s.src = .ok i c ∧ exec i (s.withSource c) = .next t) ∨
      ∃ c, decodeToken s.src = .truncated c ∧ t = takeTruncation c s) := by
  obtain ⟨hbusy, ⟨hnone, -⟩ | ⟨tree, htree, hstep⟩⟩ := step_cases h
  · rw [hstage] at hnone
    cases hnone
  · rw [hstage] at htree
    cases htree
    exact ⟨hbusy, hstep⟩

/-- The status behind a token that meets the size check: the job goes on within the ceiling and has failed above it. -/
theorem Extended.status_cases {n : Nat} {s u : State} (hu : Extended n s u) :
    ((endStep (sizeCheck u)).status = s.status ∧ (endStep (sizeCheck u)).cause = s.cause ∧ u.olen ≤ 65535) ∨
      ((endStep (sizeCheck u)).status = .error ∧ (endStep (sizeCheck u)).cause = .outputSizeOverflow ∧ 65535 < u.olen) := by
  obtain ⟨hle, h⟩ | ⟨hlt, h⟩ := sizeCheck_cases u <;> rw [h]
  · exact .inl ⟨hu.goesOn.1, hu.goesOn.2, hle⟩
  · exact .inr ⟨rfl, rfl, hlt⟩

/-- Of the tokens only EOF ends a running job in DONE. -/
theorem exec_status_done_iff {i : Instr} {s t : State} (hbusy : s.status = .busy) (h : exec i s = .next t) :
    t.status = .done ↔ i = .eof := by
  have notEof : ∀ {j : Instr}, isReference j = true ∨ (∃ v, j = .lit v) → j ≠ .eof := by
    rintro j (hj | ⟨v, rfl⟩)
    · rintro rfl
      cases hj
    · nofun
  obtain ⟨rfl, rfl⟩ | ⟨hi, offset, start, rfl⟩ | ⟨hi, n, u, -, -, hu, rfl⟩ | ⟨hi, temps, rfl⟩ := exec_cases h
  · exact ⟨fun _ => rfl, fun _ => rfl⟩
  · exact ⟨nofun, fun h => absurd h (notEof (.inl hi))⟩
  · refine ⟨fun h => ?_, fun h => absurd h (notEof hi)⟩
    obtain ⟨hstatus, -⟩ | ⟨hstatus, -⟩ := hu.status_cases
    · rw [hstatus, hbusy] at h
      cases h
    · rw [hstatus] at h
      cases h
  · refine ⟨fun h => ?_, fun h => ?_⟩
    · rw [show s.status = .done from h] at hbusy
      cases hbusy
    · rw [h] at hi
      cases hi

/-- Settles O45. -/
theorem onlyEofReachesDone : Obligations.OnlyEofReachesDone := by
  intro s t hbusy hstage h
  obtain ⟨-, ⟨i, c, hdecode, hexec⟩ | ⟨c, hdecode, rfl⟩⟩ := step_boundary_cases hstage h
  · rw [exec_status_done_iff (s := s.withSource c) hbusy hexec, hdecode]
    exact ⟨fun hi => ⟨c, by rw [hi]⟩, fun ⟨c', hc'⟩ => by cases hc'; rfl⟩
  · rw [hdecode]
    exact ⟨nofun, nofun⟩

/-- Settles O46: a failed read, a reference out of range and the size check are the three ways into ERROR. -/
theorem eachErrorComesFromItsTokens : Obligations.EachErrorComesFromItsTokens := by
  intro s t hbusy hstage h herror
  obtain ⟨-, ⟨i, c, hdecode, hexec⟩ | ⟨c, hdecode, rfl⟩⟩ := step_boundary_cases hstage h
  · obtain ⟨-, rfl⟩ | ⟨hi, offset, start, rfl⟩ | ⟨hi, n, u, -, -, hu, rfl⟩ | ⟨-, temps, rfl⟩ := exec_cases hexec
    · cases herror
    · exact .inr (.inl ⟨rfl, i, c, hdecode, hi, rfl⟩)
    · obtain ⟨hstatus, -⟩ | ⟨-, hcause, hover⟩ := hu.status_cases
      · rw [hstatus, withSource_status, hbusy] at herror
        cases herror
      · refine .inr (.inr ⟨hcause, ?_, i, c, hdecode, hi⟩)
        obtain ⟨-, hlen, -⟩ := sizeCheck_output u
        rwa [endStep_olen, hlen]
    · rw [show s.status = .error from herror] at hbusy
      cases hbusy
  · exact .inl ⟨rfl, c, hdecode⟩

/-! ### The invariant -/

/-- A source with a whole input and a whole word may take the place of the old one. -/
theorem withSource_inv {s : State} {c : Source} (hs : s.Inv) (hinput : c.inputOk) (hword : c.wordOk) : (s.withSource c).Inv where
  input := hinput
  count := by
    obtain ⟨-, h16, -⟩ := hword
    exact h16
  word _ := hword
  output := hs.output
  status := hs.status
  ceiling := hs.ceiling
  capacity := hs.capacity
  boundary := hs.boundary

/-- The reads of a step keep the input whole and `ip` inside it. -/
theorem inputOk_of_later {c c' : Source} (h : c.Later c') (hc : c.inputOk) : c'.inputOk := by
  obtain ⟨hinp, hlen, -, hwithin, -⟩ := h
  obtain ⟨hcovers, hip⟩ := hc
  exact ⟨by rw [hinp, hlen, hcovers], hwithin hip⟩

/-- In ERROR the status registers agree as soon as there is a cause, and error information for InvalidAddress alone. -/
theorem statusOk_of_error {t : State} (hstatus : t.status = .error) (hcause : t.cause ≠ .none)
    (hinfo : t.cause ≠ .invalidAddress → t.errOffset = 0 ∧ t.errStart = 0) : t.statusOk :=
  ⟨⟨fun h => absurd h hcause, fun h => absurd hstatus h⟩, hinfo⟩

theorem cause_of_not_error {s : State} (hs : s.Inv) (h : s.status ≠ .error) : s.cause = .none := by
  obtain ⟨hcause, -⟩ := hs.status
  exact hcause.2 h

/-- A running job has no cause and no error information (10_state.md R20, R21). -/
theorem registers_of_busy {s : State} (hs : s.Inv) (hbusy : s.status = .busy) :
    s.cause = .none ∧ s.errOffset = 0 ∧ s.errStart = 0 := by
  have hnone := cause_of_not_error hs (by rw [hbusy]; decide)
  obtain ⟨-, hinfo⟩ := hs.status
  exact ⟨hnone, hinfo (by rw [hnone]; decide)⟩

theorem olen_le_of_busy {s : State} (hs : s.Inv) (hbusy : s.status = .busy) : s.olen ≤ 65535 :=
  hs.ceiling (by rw [hbusy]; decide)

/-- A Truncation keeps the invariant. -/
theorem takeTruncation_inv {s : State} {c : Source} (hs : s.Inv) (hbusy : s.status = .busy) (hc : s.src.Later c) :
    (takeTruncation c s).Inv := by
  obtain ⟨-, hoffset, hstart⟩ := registers_of_busy hs hbusy
  have hlater := hc.trans (truncated_later c)
  exact
    { input := inputOk_of_later hlater hs.input
      count := hlater.cnt_le hs.count
      word := nofun
      output := hs.output
      status := statusOk_of_error rfl nofun fun _ => ⟨hoffset, hstart⟩
      ceiling := fun h => absurd rfl h
      capacity := hs.capacity
      boundary := rfl }

/-- Executing a token keeps the invariant. -/
theorem exec_keeps_inv {i : Instr} {s t : State} (hs : s.Inv) (hbusy : s.status = .busy) (hi : i.isToken = true)
    (h : exec i s = .next t) : t.Inv := by
  obtain ⟨hnone, hoffset, hstart⟩ := registers_of_busy hs hbusy
  have hceiling := olen_le_of_busy hs hbusy
  obtain ⟨-, rfl⟩ | ⟨-, offset, start, rfl⟩ | ⟨-, n, u, -, h272, hu, rfl⟩ | ⟨hsub, -⟩ := exec_cases h
  · exact
      { input := hs.input
        count := hs.count
        word := nofun
        output := hs.output
        status := ⟨⟨fun _ => nofun, fun _ => hnone⟩, fun _ => ⟨hoffset, hstart⟩⟩
        ceiling := fun _ => hceiling
        capacity := hs.capacity
        boundary := rfl }
  · exact
      { input := hs.input
        count := hs.count
        word := nofun
        output := hs.output
        status := statusOk_of_error rfl nofun fun h => absurd rfl h
        ceiling := fun h => absurd rfl h
        capacity := hs.capacity
        boundary := rfl }
  · obtain ⟨holen, -⟩ := hu.grown.appended
    obtain ⟨hle, hcheck⟩ | ⟨-, hcheck⟩ := sizeCheck_cases u <;> rw [hcheck]
    · exact
        { input := by rw [endStep_src, hu.src]; exact hs.input
          count := by rw [endStep_src, hu.src]; exact hs.count
          word := fun _ => by rw [endStep_src, hu.src]; exact hs.word hbusy
          output := hu.grown.whole hs.output
          status := by
            obtain ⟨hstatus, hcause⟩ := hu.goesOn
            rw [State.statusOk, endStep_status, endStep_cause, endStep_errOffset, endStep_errStart, hstatus, hcause,
              hu.errOffset, hu.errStart]
            exact hs.status
          ceiling := fun _ => hle
          capacity := hle.trans (Nat.le_add_right _ _)
          boundary := rfl }
    · exact
        { input := by rw [endStep_src, raiseOverflow_src, hu.src]; exact hs.input
          count := by rw [endStep_src, raiseOverflow_src, hu.src]; exact hs.count
          word := nofun
          output := hu.grown.whole hs.output
          status := statusOk_of_error rfl nofun fun _ => ⟨hu.errOffset.trans hoffset, hu.errStart.trans hstart⟩
          ceiling := fun h => absurd rfl h
          capacity := by
            have : s.olen + n ≤ 65535 + 272 := Nat.add_le_add hceiling h272
            exact holen.trans_le this
          boundary := rfl }
  · rw [hi] at hsub
    cases hsub

theorem stage_of_inv {s : State} (hs : s.Inv) : s.temps.stage = .token := by rw [hs.boundary]; rfl

/-- Settles O41: the reads of a token leave a whole source, and the token or the Truncation keeps the invariant from there. -/
theorem everyStepKeepsTheBoundaryInvariant : Obligations.EveryStepKeepsTheBoundaryInvariant := by
  intro s t hs h
  obtain ⟨hbusy, ⟨i, c, hdecode, hexec⟩ | ⟨c, hdecode, rfl⟩⟩ := step_boundary_cases (stage_of_inv hs) h
  · obtain ⟨h1, h16, -⟩ := hs.word hbusy
    obtain ⟨-, htoken⟩ := wf_of_decodeToken hdecode h1 h16
    have hinv := withSource_inv hs (inputOk_of_later (later_of_run hdecode) hs.input) (wordOk_of_run hdecode (hs.word hbusy))
    exact exec_keeps_inv hinv hbusy htoken hexec
  · exact takeTruncation_inv hs hbusy (later_of_run_truncated hdecode)

/-! ### Progress -/

/-- In a whole output within the ceiling a reference answers a next state, in range or out of it. -/
theorem exec_reference_completes {i : Instr} {s : State} (hi : isReference i = true) (hs : s.outputOk) (hlen : s.olen ≤ 65535) :
    ∃ t, exec i s = .next t := by
  obtain hin | hout := le_or_gt (distance i) s.olen
  · obtain ⟨u, hexec, -⟩ := exec_reference_in_range hi hs hlen hin
    exact ⟨_, hexec⟩
  · obtain ⟨offset, start, hexec, -⟩ := exec_reference_out_of_range hi hlen hout
    exact ⟨_, hexec⟩

/-- In a whole output within the ceiling every token answers a next state. -/
theorem exec_completes {i : Instr} {s : State} (hi : i.isToken = true) (hs : s.outputOk) (hlen : s.olen ≤ 65535) :
    ∃ t, exec i s = .next t := by
  cases i with
  | lit v => exact ⟨_, rfl⟩
  | eof => exact ⟨_, rfl⟩
  | sref | mref | bref => exact exec_reference_completes rfl hs hlen
  | _ => cases hi

/-- From a BUSY state that meets the invariant, STEP answers a next state. -/
theorem step_completes {s : State} (hs : s.Inv) (hbusy : s.status = .busy) : ∃ t, step s = .next t := by
  have htree : treeAt s.temps.stage = some readToken := by rw [stage_of_inv hs]; rfl
  obtain ⟨h1, h16, -⟩ := hs.word hbusy
  obtain ⟨hcovers, -⟩ := hs.input
  obtain ⟨i, c, hrun⟩ | ⟨c, hrun⟩ := run_total readToken hcovers h1 h16
  · obtain ⟨-, htoken⟩ := wf_of_decodeToken hrun h1 h16
    have hlen := olen_le_of_busy hs hbusy
    obtain ⟨t, ht⟩ := exec_completes (s := s.withSource c) htoken hs.output hlen
    exact ⟨t, (step_of_ok hbusy htree hrun).trans ht⟩
  · exact ⟨_, step_of_truncated hbusy htree hrun⟩

/-- No step leads to IDLE. -/
theorem step_status_ne_idle {s t : State} (hstage : s.temps.stage = .token) (h : step s = .next t) : t.status ≠ .idle := by
  obtain ⟨hbusy, ⟨i, c, -, hexec⟩ | ⟨c, -, rfl⟩⟩ := step_boundary_cases hstage h
  · obtain ⟨-, rfl⟩ | ⟨-, offset, start, rfl⟩ | ⟨-, n, u, -, -, hu, rfl⟩ | ⟨-, temps, rfl⟩ := exec_cases hexec
    · exact nofun
    · exact nofun
    · obtain ⟨hstatus, -⟩ | ⟨hstatus, -⟩ := hu.status_cases
      · rw [hstatus, withSource_status, hbusy]
        decide
      · rw [hstatus]
        decide
    · show s.status ≠ .idle
      rw [hbusy]
      decide
  · exact nofun

/-- Settles O42: the step completes (`step_completes`), and what STATUS and CAUSE then are is O41, O45 and O46. -/
theorem busyStepsAlwaysComplete : Obligations.BusyStepsAlwaysComplete := by
  intro s hs hbusy
  obtain ⟨t, ht⟩ := step_completes hs hbusy
  have hinv := everyStepKeepsTheBoundaryInvariant s t hs ht
  refine ⟨t, ht, ?_⟩
  cases hstatus : t.status with
  | idle => exact absurd hstatus (step_status_ne_idle (stage_of_inv hs) ht)
  | busy => exact .inl ⟨rfl, cause_of_not_error hinv (by rw [hstatus]; decide)⟩
  | done =>
    have hnone := cause_of_not_error hinv (by rw [hstatus]; decide)
    exact .inr (.inl ⟨rfl, hnone, (onlyEofReachesDone s t hbusy (stage_of_inv hs) ht).1 hstatus⟩)
  | error =>
    refine .inr (.inr ⟨rfl, ?_⟩)
    obtain ⟨hcause, -⟩ | ⟨hcause, -⟩ | ⟨hcause, -⟩ := eachErrorComesFromItsTokens s t hbusy (stage_of_inv hs) ht hstatus
    · exact .inl hcause
    · exact .inr (.inl hcause)
    · exact .inr (.inr hcause)

end Sys2Proof.Machine

/-! The host's side: reset, START, polling, the report and the result of a job (10_state.md R26, 20_memory.md R41,
42_output_engine.md R81, 70_reset_and_hazards.md R93 to R96), and EOF at the end of a word (30_encoding.md R45). -/

namespace Sys2Proof.Machine

open Sys2Proof.Claims

/-! ### Reset and reads -/

/-- Settles O1. -/
theorem resetLeavesTheStatedRegisters : Obligations.ResetLeavesTheStatedRegisters := fun _ =>
  ⟨rfl, rfl, rfl, rfl, rfl, rfl, rfl, fun _ => rfl, step_of_not_busy nofun⟩

/-- Settles O2: after reset there is no input, no output, no cause and no temporary. -/
theorem resetMeetsTheBoundaryInvariant : Obligations.ResetMeetsTheBoundaryInvariant where
  input := ⟨rfl, le_refl 0⟩
  count := Nat.zero_le _
  word := nofun
  output := rfl
  status := ⟨⟨fun _ => nofun, fun _ => rfl⟩, fun _ => ⟨rfl, rfl⟩⟩
  ceiling _ := Nat.zero_le _
  capacity := Nat.zero_le _
  boundary := rfl

/-- Settles O6: the report tests exactly whether the job has ended. -/
theorem hostReadsOnlyAfterTheJob : Obligations.HostReadsOnlyAfterTheJob := by
  intro s
  unfold hostReport State.ended
  cases hs : s.status with
  | idle | busy => exact ⟨fun _ => rfl, fun h => by simp at h⟩
  | done | error => exact ⟨fun h => by simp at h, fun _ => ⟨_, rfl, rfl, rfl, rfl, rfl, rfl, rfl, rfl⟩⟩

/-- Settles O7. -/
theorem statusAndCauseReadAsNumbered : Obligations.StatusAndCauseReadAsNumbered :=
  ⟨fun _ => rfl, rfl, rfl, rfl, rfl, rfl, rfl, rfl, rfl⟩

/-- The listed bytes of a space that is whole from `lo` on are what it reads there. -/
theorem Memory.getElem?_bytes_of_coversFrom {lo n : Nat} {m : Memory} (h : Memory.coversFrom lo n m = true) (i : Nat) :
    m.bytes[i]? = m.read (lo + i) := by
  induction m generalizing lo n i with
  | nil => rfl
  | cons c rest ih =>
    obtain ⟨k, x⟩ := c
    obtain ⟨p, rfl, rfl, hrest⟩ := Memory.coversFrom_cons.1 h
    have hbytes : Memory.bytes ((k, x) :: rest) = x :: Memory.bytes rest := rfl
    rw [hbytes, Memory.read_cons]
    cases i with
    | zero => rw [Nat.add_zero, if_pos rfl, List.getElem?_cons_zero]
    | succ i => rw [if_neg (by omega), List.getElem?_cons_succ, ih hrest, Nat.add_assoc, Nat.add_comm 1]

theorem jobResult_of_done {s : State} (h : s.status = .done) : jobResult s = some (.ok s.out.bytes) := by
  rw [jobResult, h]

theorem jobResult_of_error {s : State} (h : s.status = .error) :
    jobResult s = some (.err s.cause s.errOffset s.errStart) := by
  rw [jobResult, h]

/-- Settles O8: the bytes of a whole output buffer are what it reads below `olen`. -/
theorem jobResultIsTheOutputOrTheError : Obligations.JobResultIsTheOutputOrTheError := by
  refine fun s hs => ⟨fun hdone => ?done, jobResult_of_error, fun hrunning => ?running⟩
  case done =>
    refine ⟨_, jobResult_of_done hdone, Memory.length_bytes_of_covers hs, fun i _ => ?_⟩
    rw [Memory.getElem?_bytes_of_coversFrom hs, Nat.zero_add]
  case running =>
    cases hstatus : s.status with
    | idle | busy => rw [jobResult, hstatus]
    | done => exact absurd (.inl hstatus) hrunning
    | error => exact absurd (.inr hstatus) hrunning

/-! ### START -/

/-- The state right behind a START that found its first word. -/
def started (lo hi : Byte) (bytes : List Byte) (s : State) : State :=
  (beginJob bytes s).withSource (firstWord lo hi bytes)

/-- START on two bytes or more loads the first word. -/
theorem hostStart_of_two_le {s : State} (hs : s.status ≠ .busy) (lo hi : Byte) (rest : List Byte) :
    hostStart (lo :: hi :: rest) s = .next (started lo hi (lo :: hi :: rest) s) := by
  rw [hostStart_of_not_busy hs, beginJob_src, loadCw_at_zero]
  rfl

/-- START on fewer than two bytes raises Truncation. -/
theorem hostStart_of_lt_two {s : State} {bytes : List Byte} (hs : s.status ≠ .busy) (h : bytes.length < 2) :
    hostStart bytes s = .next (takeTruncation (beginJob bytes s).src (beginJob bytes s)) := by
  have hload : loadCw (beginJob bytes s).src = .truncated (beginJob bytes s).src :=
    loadCw_eq_truncated.2 ⟨by rw [beginJob_src]; exact h, rfl⟩
  rw [hostStart_of_not_busy hs, hload]

/-- Settles O3. -/
theorem startBeginsAJob : Obligations.StartBeginsAJob := by
  refine fun s bytes => ⟨fun hbusy => ?refused, fun hs lo hi rest hbytes => ?begun, fun hs hshort => ?short⟩
  case refused => rw [hostStart, hbusy]
  case begun =>
    have hword : (pair hi lo).toNat = 256 * hi.toNat + lo.toNat := by
      have := hi.isLt
      have := lo.isLt
      rw [pair_eq_ofNat, BitVec.toNat_ofNat]
      omega
    rw [hbytes]
    exact ⟨_, hostStart_of_two_le hs lo hi rest, rfl, rfl, rfl, rfl, rfl, hword, rfl, rfl, rfl, Memory.read_ofBytes _,
      fun _ => rfl, rfl⟩
  case short => exact ⟨_, hostStart_of_lt_two hs hshort, rfl, rfl, rfl, rfl, rfl, rfl, rfl⟩

/-- A job that has begun meets the invariant, whatever was before. -/
theorem started_inv (lo hi : Byte) {bytes : List Byte} (h : 2 ≤ bytes.length) (s : State) : (started lo hi bytes s).Inv where
  input := ⟨Memory.covers_ofBytes bytes, h⟩
  count := le_refl 16
  word _ := ⟨Nat.le_add_left 1 15, le_refl 16, (pair hi lo).isLt⟩
  output := rfl
  status := ⟨⟨fun _ => nofun, fun _ => rfl⟩, fun _ => ⟨rfl, rfl⟩⟩
  ceiling _ := Nat.zero_le _
  capacity := Nat.zero_le _
  boundary := rfl

/-- The two ways a START goes: it begins the job, or the input is too short for a word. -/
theorem start_eq {bytes : List Byte} {s t : State} (h : hostStart bytes s = .next t) :
    (∃ lo hi, 2 ≤ bytes.length ∧ t = started lo hi bytes s) ∨
      (bytes.length < 2 ∧ t = takeTruncation (beginJob bytes s).src (beginJob bytes s)) := by
  obtain ⟨-, hshort | ⟨lo, hi, -, hsecond, rfl⟩⟩ := start_cases h
  · exact .inr hshort
  · obtain ⟨hlen, -⟩ := List.getElem?_eq_some_iff.1 hsecond
    exact .inl ⟨lo, hi, hlen, rfl⟩

/-- Settles O4: a job that has begun meets the invariant from any state, and a Truncation leaves of the old state only the
count of unread bits. -/
theorem startKeepsTheBoundaryInvariant : Obligations.StartKeepsTheBoundaryInvariant := by
  intro s t bytes hs h
  obtain ⟨lo, hi, hlen, rfl⟩ | ⟨-, rfl⟩ := start_eq h
  · exact started_inv lo hi hlen s
  · exact
      { input := inputOk_of_later (truncated_later _) ⟨Memory.covers_ofBytes bytes, Nat.zero_le _⟩
        count := hs.count
        word := nofun
        output := rfl
        status := statusOk_of_error rfl nofun fun _ => ⟨rfl, rfl⟩
        ceiling := fun h => absurd rfl h
        capacity := Nat.zero_le _
        boundary := rfl }

/-! ### EOF at the end of a word -/

/-- Behind the two flags and `offset_l` of a small reference, the last flag decides (41_tokens.md R65). -/
theorem decodeToken_smallReference {c c1 c2 c3 : Source} {l : Byte} (h0 : nextBit c = .ok false c1)
    (h1 : nextBit c1 = .ok false c2) (hl : inByte c2 = .ok l c3) :
    decodeToken c = (nextBit c3).bind fun c2 d =>
      (if c2 then Reader.field 3 0 fun h => .done (.mref l (BitVec.ofNat 3 h))
        else if l = 0xFF then .done .eof else .done (.sref l)).run d := by
  rw [decodeToken, readToken, Reader.run_bit, h0, ReadResult.bind_ok, if_neg Bool.false_ne_true, Reader.run_bit, h1,
    ReadResult.bind_ok, Reader.run_byte, hl, ReadResult.bind_ok, if_neg Bool.false_ne_true, Reader.run_bit]

/-- With three zero bits left and 0xFF next, the word's last bit is EOF's, behind the raw byte. -/
theorem decodeToken_eof_at_end {c : Source} (hcnt : c.cnt = 3) (hcw : c.cw = 0) (hlen : c.ip + 1 ≤ c.inLen)
    (hff : c.inp.read c.ip = some 0xFF) :
    ∃ d : Source, d.cnt = 1 ∧ d.ip = c.ip + 1 ∧ d.inp = c.inp ∧ d.inLen = c.inLen ∧ d.cw.getLsbD 0 = false ∧
      (∀ c', nextBit d = .ok false c' → decodeToken c = .ok .eof c') ∧
      (∀ c', nextBit d = .truncated c' → decodeToken c = .truncated c') := by
  have h0 : nextBit c = .ok false { c with cnt := 2, cw := 0 } := by
    simp [nextBit_of_two_le, afterShift, hcnt, hcw]
  have h1 : nextBit { c with cnt := 2, cw := 0 } = .ok false { c with cnt := 1, cw := 0 } := by
    simp [nextBit_of_two_le, afterShift]
  have hl : inByte { c with cnt := 1, cw := 0 } = .ok 0xFF { c with ip := c.ip + 1, cnt := 1, cw := 0 } :=
    inByte_eq_ok.2 ⟨hlen, hff, rfl⟩
  have hdecode := decodeToken_smallReference h0 h1 hl
  refine ⟨{ c with ip := c.ip + 1, cnt := 1, cw := 0 }, rfl, rfl, rfl, rfl, BitVec.getLsbD_zero, fun c' h => ?_, fun c' h => ?_⟩
  · rw [hdecode, h, ReadResult.bind_ok, if_neg Bool.false_ne_true, if_pos rfl, Reader.run_done]
  · rw [hdecode, h, ReadResult.bind_truncated]

/-- Settles O37: EOF's last bit is the word's, so NEXTBIT must load the next word before it can deliver it. -/
theorem eofAtTheEndOfAWordNeedsTwoMoreBytes : Obligations.EofAtTheEndOfAWordNeedsTwoMoreBytes := by
  intro s hbusy hstage hc hcnt hcw hff
  have htree : treeAt s.temps.stage = some readToken := by rw [hstage]; rfl
  have hlen : s.src.ip < s.src.inLen := by
    simpa [hff] using Memory.isSome_read_of_covers hc s.src.ip
  obtain ⟨d, hdcnt, hdip, hdinp, hdlen, hbit, heof, hshort⟩ := decodeToken_eof_at_end hcnt hcw hlen hff
  refine ⟨fun hroom => ?done, fun hend => ?truncated⟩
  case done =>
    have hroom' : d.ip + 2 ≤ d.inLen := by omega
    obtain ⟨lo, hi, hlo, hhi, -⟩ := loadCw_of_covers (c := d) (by rw [hdinp, hdlen, hc]) hroom'
    have hlast := nextBit_of_refill hdcnt hroom' hlo hhi
    rw [hbit] at hlast
    exact ⟨_, (step_of_ok hbusy htree (heof _ hlast)).trans (exec_eof _), rfl, congrArg (· + 2) hdip, rfl⟩
  case truncated =>
    have hlast := nextBit_of_short hdcnt (by omega)
    exact ⟨_, step_of_truncated hbusy htree (hshort _ hlast), rfl, rfl⟩

end Sys2Proof.Machine

/-! Whole jobs: the input behind `ip` is never read (42_output_engine.md R78), every job ends (R82), and a job is a function of its
input (R83). -/

namespace Sys2Proof

open Sys2Proof.Machine

/-! ### Reads under another input -/

/-- The source with another input. -/
def Source.withInput (c : Source) (m : Memory) (n : Nat) : Source := { c with inp := m, inLen := n }

/-- An input serves a source as far as `ip`: it is as long, and holds the same bytes below it. -/
def Source.ServedBy (c : Source) (m : Memory) (n : Nat) : Prop := c.ip ≤ n ∧ ∀ a, a < c.ip → m.read a = c.inp.read a

/-- What serves a source serves every earlier one. -/
theorem Source.ServedBy.of_later {c c' : Source} {m : Memory} {n : Nat} (h : c'.ServedBy m n) (hc : c.Later c') :
    c.ServedBy m n := by
  obtain ⟨hinp, -, hip, -⟩ := hc
  obtain ⟨hlen, hread⟩ := h
  exact ⟨hip.trans hlen, fun a ha => by rw [hread a (by omega), hinp]⟩

theorem inByte_withInput {c c' : Source} {v : Byte} {m : Memory} {n : Nat} (h : inByte c = .ok v c') (hs : c'.ServedBy m n) :
    inByte (c.withInput m n) = .ok v (c'.withInput m n) := by
  obtain ⟨-, hread, rfl⟩ := inByte_eq_ok.1 h
  obtain ⟨hlen, hsame⟩ := hs
  exact inByte_eq_ok.2 ⟨hlen, (hsame c.ip (Nat.lt_succ_self _)).trans hread, rfl⟩

theorem loadCw_withInput {c c' : Source} {u : Unit} {m : Memory} {n : Nat} (h : loadCw c = .ok u c') (hs : c'.ServedBy m n) :
    loadCw (c.withInput m n) = .ok u (c'.withInput m n) := by
  obtain ⟨-, lo, hi, hlo, hhi, rfl⟩ := loadCw_eq_ok.1 h
  obtain ⟨hlen, hsame⟩ := hs
  exact loadCw_eq_ok.2 ⟨hlen, lo, hi, (hsame c.ip (Nat.lt_add_of_pos_right Nat.two_pos)).trans hlo,
    (hsame (c.ip + 1) (Nat.lt_succ_self _)).trans hhi, rfl⟩

theorem nextBit_withInput {c c' : Source} {b : Bool} {m : Memory} {n : Nat} (h : nextBit c = .ok b c') (hs : c'.ServedBy m n) :
    nextBit (c.withInput m n) = .ok b (c'.withInput m n) := by
  obtain ⟨h0, hb, ⟨h1, rfl⟩ | ⟨h1, hload⟩⟩ := nextBit_eq_ok.1 h
  · exact nextBit_eq_ok.2 ⟨h0, hb, .inl ⟨h1, rfl⟩⟩
  · exact nextBit_eq_ok.2 ⟨h0, hb, .inr ⟨h1, loadCw_withInput hload hs⟩⟩

/-- A tree reads the same off any input that serves the source it leaves. -/
theorem run_withInput {α : Type} {t : Reader α} {c c' : Source} {v : α} {m : Memory} {n : Nat} (h : t.run c = .ok v c')
    (hs : c'.ServedBy m n) : t.run (c.withInput m n) = .ok v (c'.withInput m n) := by
  induction t generalizing c with
  | done w =>
    cases h
    rfl
  | bit k ih =>
    obtain ⟨b, c1, hbit, h⟩ := ReadResult.bind_eq_ok.1 h
    rw [Reader.run_bit, nextBit_withInput hbit (hs.of_later (later_of_run h)), ReadResult.bind_ok, ih b h]
  | byte k ih =>
    obtain ⟨b, c1, hbyte, h⟩ := ReadResult.bind_eq_ok.1 h
    rw [Reader.run_byte, inByte_withInput hbyte (hs.of_later (later_of_run h)), ReadResult.bind_ok, ih b h]

namespace Machine

open Sys2Proof.Claims

/-! ### Execution under another input -/

theorem sizeCheck_withInput (m : Memory) (n : Nat) (s : State) : sizeCheck (withInput m n s) = withInput m n (sizeCheck s) := by
  have holen : (withInput m n s).olen = s.olen := rfl
  unfold sizeCheck
  rw [holen]
  split <;> rfl

/-- A copy reads the output alone. -/
theorem copy_withInput {k i : Nat} {s t : State} (m : Memory) (n : Nat) (h : copy k i s = .next t) :
    copy k i (withInput m n s) = .next (withInput m n t) := by
  induction k generalizing i s with
  | zero =>
    cases h
    rfl
  | succ k ih =>
    simp only [copy] at h
    split at h
    next => cases h
    next v hv =>
      rw [copy_succ k i (withInput m n s) (v := v) hv]
      exact ih h

theorem execBackReference_withInput {offset length : Half} {s t : State} (m : Memory) (n : Nat)
    (h : execBackReference offset length s = .next t) :
    execBackReference offset length (withInput m n s) = .next (withInput m n t) := by
  obtain ⟨hinvalid, rfl⟩ | ⟨hvalid, u, hcopy, rfl⟩ := execBackReference_cases h
  · exact execBackReference_invalid (s := withInput m n s) hinvalid
  · rw [execBackReference_valid (s := withInput m n s) hvalid (copy_withInput m n hcopy), sizeCheck_withInput]
    rfl

/-- No instruction reads the input once it is decoded. -/
theorem exec_withInput {i : Instr} {s t : State} (m : Memory) (n : Nat) (h : exec i s = .next t) :
    exec i (withInput m n s) = .next (withInput m n t) := by
  cases i with
  | lit v =>
    cases h
    exact congrArg (fun u => Host.Outcome.next (endStep u)) (sizeCheck_withInput m n (outAppend v s))
  | sref l => exact execBackReference_withInput m n h
  | mref l k => exact execBackReference_withInput m n h
  | bref l o k => exact execBackReference_withInput m n h
  | _ =>
    cases h
    rfl

theorem treeAt_eq_none_iff {g : Stage} : treeAt g = none ↔ g = .resolve := by
  cases g <;> simp [treeAt]

/-- Settles O47: a step reads its token and no more, and the token's execution reads no input at all. -/
theorem inputBehindIpIsNeverRead : Obligations.InputBehindIpIsNeverRead := by
  intro s t m n h hcause hn hm
  obtain ⟨hbusy, ⟨hresolve, hcomplete⟩ | ⟨tree, htree, ⟨i, c, hrun, hexec⟩ | ⟨c, -, rfl⟩⟩⟩ := step_cases h
  · have hstage := treeAt_eq_none_iff.1 hresolve
    exact (step_of_resolve (s := withInput m n s) hbusy hstage).trans (execBackReference_withInput m n hcomplete)
  · obtain ⟨hsrc, -⟩ := exec_grown hexec
    have hinp := (later_of_run hrun).inp_eq
    have hserved : c.ServedBy m n := by
      rw [hsrc] at hn hm
      exact ⟨hn, fun a ha => by rw [hm a ha, hinp]⟩
    exact (step_of_ok (s := withInput m n s) hbusy htree (run_withInput hrun hserved)).trans (exec_withInput m n hexec)
  · exact absurd rfl (hcause rfl)

/-! ### Every job ends -/

/-- A running job has read no more input than 32 bits for each output byte. -/
structure Paced (s : State) : Prop where
  inv : s.Inv
  busy : s.status = .busy
  pace : 8 * s.src.ip ≤ 32 * s.olen + s.src.cnt

/-- A job has ended within the bound of 42_output_engine.md R82. -/
def EndedInBound (s : State) : Prop := s.ended ∧ s.src.ip ≤ 286722

theorem Paced.olen_le {s : State} (h : Paced s) : s.olen ≤ 65535 := olen_le_of_busy h.inv h.busy

theorem Paced.ip_le {s : State} (h : Paced s) : s.src.ip ≤ 286722 := by
  have := h.pace
  have := h.olen_le
  have : s.src.cnt ≤ 16 := h.inv.count
  omega

/-- Where a running job goes on, the step has appended a byte, which pays for the token's bits. -/
theorem Paced.exec {i : Instr} {s t : State} {c : Source} (hs : Paced s) (hdecode : decodeToken s.src = .ok i c)
    (h : exec i (s.withSource c) = .next t) (ht : t.Inv) : (Paced t ∧ s.olen < t.olen) ∨ EndedInBound t := by
  obtain ⟨h1, h16, -⟩ := hs.inv.word hs.busy
  have hcost := cost_of_run readToken_cost hdecode h1 h16
  have hpace := hs.pace
  have hlen := hs.olen_le
  obtain ⟨hsrc, -⟩ := exec_grown h
  have hcnt := (later_of_run hdecode).cnt_le h16
  have hbound : t.src.ip ≤ 286722 := by
    rw [hsrc, withSource_src]
    omega
  obtain ⟨-, rfl⟩ | ⟨-, offset, start, rfl⟩ | ⟨-, n, u, hn, -, hu, rfl⟩ | ⟨hsub, -⟩ := exec_cases h
  · exact .inr ⟨.inl rfl, hbound⟩
  · exact .inr ⟨.inr rfl, hbound⟩
  · obtain ⟨hstatus, -⟩ | ⟨hstatus, -⟩ := hu.status_cases
    · obtain ⟨happended, -⟩ := hu.grown.appended
      obtain ⟨-, hsame, -⟩ := sizeCheck_output u
      have holen : (endStep (sizeCheck u)).olen = s.olen + n := hsame.trans happended
      refine .inl ⟨⟨ht, hstatus.trans hs.busy, ?_⟩, by omega⟩
      rw [hsrc, withSource_src, holen]
      omega
    · exact .inr ⟨.inr hstatus, hbound⟩
  · obtain ⟨-, htoken⟩ := wf_of_decodeToken hdecode h1 h16
    rw [hsub] at htoken
    cases htoken

/-- A Truncation leaves `ip` within an input that was too short for the token. -/
theorem Paced.truncated {s : State} {c : Source} (hs : Paced s) (hdecode : decodeToken s.src = .truncated c) :
    EndedInBound (takeTruncation c s) := by
  obtain ⟨h1, h16, -⟩ := hs.inv.word hs.busy
  have hshort := cost_of_run_truncated readToken_cost hdecode h1 h16
  have hlater := (later_of_run_truncated hdecode).trans (truncated_later c)
  obtain ⟨-, hwithin⟩ := inputOk_of_later hlater hs.inv.input
  have hlen : c.inLen = s.src.inLen := hlater.inLen_eq
  have hpace := hs.pace
  have holen := hs.olen_le
  refine ⟨.inr rfl, ?_⟩
  simp only [takeTruncation_src] at hwithin ⊢
  omega

/-- A running job's step goes on with a longer output, or ends. -/
theorem Paced.step {s : State} (hs : Paced s) :
    ∃ t, step s = .next t ∧ ((Paced t ∧ s.olen < t.olen) ∨ EndedInBound t) := by
  obtain ⟨t, ht⟩ := step_completes hs.inv hs.busy
  refine ⟨t, ht, ?_⟩
  obtain ⟨-, ⟨i, c, hdecode, hexec⟩ | ⟨c, hdecode, rfl⟩⟩ := step_boundary_cases (stage_of_inv hs.inv) ht
  · exact hs.exec hdecode hexec (everyStepKeepsTheBoundaryInvariant s t hs.inv ht)
  · exact .inr (hs.truncated hdecode)

theorem runJob_succ {s t : State} (hbusy : s.status = .busy) (h : Machine.step s = .next t) (k : Nat) :
    runJob (k + 1) s = runJob k t := by
  rw [runJob, hbusy, h]

theorem runJob_of_ended {s : State} (h : s.ended) (k : Nat) : runJob k s = .next s := by
  refine runJob_ended k s ?_
  obtain h | h := h <;> rw [h] <;> decide

/-- After any number of steps a job has an output byte for each, or has ended. -/
theorem Paced.runJob {s : State} (hs : Paced s) (k : Nat) :
    ∃ t, runJob k s = .next t ∧ ((Paced t ∧ s.olen + k ≤ t.olen) ∨ EndedInBound t) := by
  induction k generalizing s with
  | zero => exact ⟨s, rfl, .inl ⟨hs, le_refl _⟩⟩
  | succ k ih =>
    obtain ⟨s', hstep, ⟨hs', hlonger⟩ | hended⟩ := hs.step
    · obtain ⟨t, hrun, ht⟩ := ih hs'
      exact ⟨t, (runJob_succ hs.busy hstep k).trans hrun, ht.imp_left fun ⟨hpaced, hlen⟩ => ⟨hpaced, by omega⟩⟩
    · exact ⟨s', (runJob_succ hs.busy hstep k).trans (runJob_of_ended hended.1 k), .inr hended⟩

theorem started_paced (lo hi : Byte) {bytes : List Byte} (h : 2 ≤ bytes.length) (s : State) : Paced (started lo hi bytes s) :=
  ⟨started_inv lo hi h s, rfl, le_refl 16⟩

/-- A START on too short an input leaves `ip` within it. -/
theorem endedInBound_of_short {bytes : List Byte} (h : bytes.length < 2) (s : State) :
    EndedInBound (takeTruncation (beginJob bytes s).src (beginJob bytes s)) := by
  have hwithin : truncatedIp (beginJob bytes s).src ≤ bytes.length := (truncatedIp_bounds _).2 (Nat.zero_le _)
  refine ⟨.inr rfl, ?_⟩
  rw [takeTruncation_src]
  show truncatedIp _ ≤ 286722
  omega

/-- Settles O48: a job that still ran after 65536 steps would have as many output bytes, past the ceiling. -/
theorem everyJobEnds : Obligations.EveryJobEnds := by
  intro bytes s s0 h
  obtain ⟨lo, hi, hlen, rfl⟩ | ⟨hshort, rfl⟩ := start_eq h
  · have hpaced := started_paced lo hi hlen s
    constructor
    · obtain ⟨t, hrun, ⟨ht, hmany⟩ | ht⟩ := hpaced.runJob 65536
      · have := ht.olen_le
        omega
      · exact ⟨t, hrun, ht.1⟩
    · intro k t hrun
      obtain ⟨t', hrun', ht⟩ := hpaced.runJob k
      obtain rfl : t' = t := by simpa [hrun] using hrun'.symm
      obtain ⟨ht, -⟩ | ht := ht
      · exact ht.ip_le
      · exact ht.2
  · have hended := endedInBound_of_short hshort s
    refine ⟨⟨_, runJob_of_ended hended.1 _, hended.1⟩, fun k t hrun => ?_⟩
    rw [runJob_of_ended hended.1] at hrun
    cases hrun
    exact hended.2

/-! ### Determinism -/

/-- Settles O49: a START that loads a word leaves nothing of the old state, so the two jobs are the same; one that does not has
ended, and what can be read of it is of the input. -/
theorem jobsDependOnTheirInputAlone : Obligations.JobsDependOnTheirInputAlone := by
  intro bytes s1 s2 hs1 hs2
  obtain hshort | hlong := Nat.lt_or_ge bytes.length 2
  · have hended := fun s => (endedInBound_of_short hshort s).1
    refine ⟨_, _, hostStart_of_lt_two hs1 hshort, hostStart_of_lt_two hs2 hshort, fun k u hrun => ?_⟩
    rw [runJob_of_ended (hended s1)] at hrun
    cases hrun
    exact ⟨_, runJob_of_ended (hended s2) k, rfl, rfl, rfl⟩
  · match bytes, hlong with
    | lo :: hi :: rest, _ =>
      exact ⟨_, _, hostStart_of_two_le hs1 lo hi rest, hostStart_of_two_le hs2 lo hi rest,
        fun k u hrun => ⟨u, hrun, rfl, rfl, rfl⟩⟩

end Machine

end Sys2Proof
